-- ==== Sys2Proof/Word.lean ====
section
/-! DEFINITION. The bit-vector types of the block: bytes, the 32-bit `arg` and `rsp` words, command words and
addresses (00_scope.md R10, R17; all values unsigned). -/

namespace Sys2Proof

/-- An 8-bit unsigned value, the `u8` of R10: a stored byte, a sample, a scale, a dither value. -/
abbrev Byte := BitVec 8

/-- A word of the `arg` and `rsp` buses, 32 bits (R17). -/
abbrev Word := BitVec 32

/-- A command word, 16 bits (R17, R80). -/
abbrev CmdWord := BitVec 16

/-- An address of the pixel address space. `AW` is at most 32 (R8), so 32 bits hold every address; bits
`[31:AW]` of a stored address are 0. -/
abbrev Addr := BitVec 32

end Sys2Proof
end

