-- ==== Sys2Proof/Config.lean ====
section
/-! DEFINITION. The implementation parameters of 00_scope.md R8, which the model takes as arguments: every
state carries its own (log 1), so what is stated of every state holds for every choice of them. -/

namespace Sys2Proof

/-- The parameters of R8. `LENW` is fixed at 16 and has no field. -/
structure Params where
  /-- `K`, the virtual dither bit depth, 0..8. OPEN in the spec. -/
  k : Nat
  /-- `F` (`SCALE8_FIXED`): which `scale8` of R13 the block has. -/
  scale8Fixed : Bool
  /-- `NLANES`, the number of lane offset registers, 1..16. -/
  nlanes : Nat
  /-- `EXT`: whether the block has the extended planes. -/
  ext : Bool
  /-- `AW`, the width in bits of a buffer address, 1..32. -/
  aw : Nat
deriving DecidableEq, Repr

/-- The ranges of R8. -/
def Params.wf (p : Params) : Bool :=
  decide (p.k ≤ 8) && (decide (1 ≤ p.nlanes) && decide (p.nlanes ≤ 16)) &&
    (decide (1 ≤ p.aw) && decide (p.aw ≤ 32))

/-- The parameters of the block that `State.reset` stands for: the defaults of R8 (`F` = 0, `NLANES` = 1,
`EXT` = 1, `AW` = 32). `K` is OPEN there: 3 is a DESIGN CHOICE (R8 suggests it; log 2), unsafe, and no
statement of the package rests on it. -/
def Config.params : Params :=
  { k := 3, scale8Fixed := false, nlanes := 1, ext := true, aw := 32 }

end Sys2Proof
end

