-- ==== Sys2Proof/Syntax.lean ====
section
/-! DEFINITION. The commands of SPB-1 as syntax: one constructor for each row of the opcode table
(30_encoding.md R86), and the pair of words a command is presented as (R80). -/

namespace Sys2Proof

/-- A logical channel: 0 = R, 1 = G, 2 = B (00_scope.md R12). -/
inductive Channel where
  | red
  | green
  | blue
deriving DecidableEq, Repr

/-- The commands (R86). `arg` is an operand of `HAS` and `CFGW` only (R84). -/
inductive Instr where
  /-- `INIT`, construct an instance (R100). -/
  | init
  /-- `HAS n`, do at least `n` pixels remain (R111). -/
  | has (n : Word)
  /-- `LOAD c, l`, the dithered and scaled sample of channel `c` in lane `l` (R112). -/
  | load (ch : Channel) (lane : BitVec 4)
  /-- `ADV`, the next pixel (R114). -/
  | adv
  /-- `STEP`, the next dither offset (R116). -/
  | step
  /-- `GETSC c`, the scale of a channel (R118). -/
  | getsc (ch : Channel)
  /-- `LOADLO c`, a byte of the low-byte plane (R131). -/
  | loadlo (ch : Channel)
  /-- `LOADBR c`, a brightness (R132). -/
  | loadbr (ch : Channel)
  /-- `CFGW reg, value`, write a register (R141). -/
  | cfgw (reg : BitVec 8) (value : Word)
  /-- `CFGR reg`, read a register (R143). -/
  | cfgr (reg : BitVec 8)
deriving DecidableEq, Repr

/-- What the command port carries: the command word and the argument word that comes with it (R80). -/
structure Command where
  cmd : CmdWord
  arg : Word
deriving DecidableEq, Repr

end Sys2Proof
end

