-- ==== Sys2Proof/Decode.lean ====
section
/-! DEFINITION. Decoding of command words, total and rejecting by name (30_encoding.md R80 to R87), the
encoder written from the same formats, and the opcode table as masks and patterns (R86). -/

namespace Sys2Proof

/-- Why a command word names no command of SPB-1. All of them end in `IllegalCommand` (R87). -/
inductive DecodeError where
  /-- R87 (a): the opcode is `0x0` or `0xB` .. `0xF`. -/
  | reservedOpcode
  /-- R87 (b), (d): a must-be-zero bit is 1 (the lane field of `GETSC`, `LOADLO`, `LOADBR` included). -/
  | mustBeZero
  /-- R87 (c): `ch = 3`. -/
  | reservedChannel
deriving DecidableEq, Repr

/-- The field `ch` of a channel (R82). -/
def Channel.bits : Channel → BitVec 2
  | .red => 0#2
  | .green => 1#2
  | .blue => 2#2

/-- The channel a field `ch` names; 3 is reserved (R82). -/
def Channel.ofBits (b : BitVec 2) : Option Channel :=
  match b.toNat with
  | 0 => some .red
  | 1 => some .green
  | 2 => some .blue
  | _ => none

/-- Format N (R81): bits 11:0 must be 0. -/
def decodeFormatN (w : CmdWord) (i : Instr) : Except DecodeError Instr :=
  if w.extractLsb' 0 12 = 0#12 then .ok i else .error .mustBeZero

/-- Format C with a lane field (R82, `LOAD`): bits 7:2 must be 0. -/
def decodeFormatC (w : CmdWord) (mk : Channel → Instr) : Except DecodeError Instr :=
  if w.extractLsb' 2 6 = 0#6 then
    match Channel.ofBits (w.extractLsb' 0 2) with
    | some ch => .ok (mk ch)
    | none => .error .reservedChannel
  else .error .mustBeZero

/-- Format C whose lane field must be 0 (R82, `GETSC`, `LOADLO`, `LOADBR`). -/
def decodeFormatC0 (w : CmdWord) (mk : Channel → Instr) : Except DecodeError Instr :=
  if w.extractLsb' 8 4 = 0#4 then decodeFormatC w mk else .error .mustBeZero

/-- Format R (R83): bits 11:8 must be 0. -/
def decodeFormatR (w : CmdWord) (i : Instr) : Except DecodeError Instr :=
  if w.extractLsb' 8 4 = 0#4 then .ok i else .error .mustBeZero

/-- The opcode map (R86) over `op = cmd[15:12]`. -/
def decode (c : Command) : Except DecodeError Instr :=
  match (c.cmd.extractLsb' 12 4).toNat with
  | 1 => decodeFormatN c.cmd .init
  | 2 => decodeFormatN c.cmd (.has c.arg)
  | 3 => decodeFormatC c.cmd (fun ch => .load ch (c.cmd.extractLsb' 8 4))
  | 4 => decodeFormatN c.cmd .adv
  | 5 => decodeFormatN c.cmd .step
  | 6 => decodeFormatC0 c.cmd .getsc
  | 7 => decodeFormatC0 c.cmd .loadlo
  | 8 => decodeFormatC0 c.cmd .loadbr
  | 9 => decodeFormatR c.cmd (.cfgw (c.cmd.extractLsb' 0 8) c.arg)
  | 10 => decodeFormatR c.cmd (.cfgr (c.cmd.extractLsb' 0 8))
  | _ => .error .reservedOpcode

/-- A word of format C (R82): opcode, lane, six zeros, channel. -/
def wordC (op lane : BitVec 4) (ch : Channel) : CmdWord :=
  op ++ lane ++ 0#6 ++ ch.bits

/-- A word of format R (R83): opcode, four zeros, register number. -/
def wordR (op : BitVec 4) (reg : BitVec 8) : CmdWord :=
  op ++ 0#4 ++ reg

/-- The word and argument of a command (the table of R93). Where `arg` is ignored it is 0, as R93 says. -/
def encode : Instr → Command
  | .init => ⟨0x1000#16, 0#32⟩
  | .has n => ⟨0x2000#16, n⟩
  | .load ch lane => ⟨wordC 3#4 lane ch, 0#32⟩
  | .adv => ⟨0x4000#16, 0#32⟩
  | .step => ⟨0x5000#16, 0#32⟩
  | .getsc ch => ⟨wordC 6#4 0#4 ch, 0#32⟩
  | .loadlo ch => ⟨wordC 7#4 0#4 ch, 0#32⟩
  | .loadbr ch => ⟨wordC 8#4 0#4 ch, 0#32⟩
  | .cfgw reg value => ⟨wordR 9#4 reg, value⟩
  | .cfgr reg => ⟨wordR 10#4 reg, 0#32⟩

/-- The three formats of R81 to R83. -/
inductive Format where
  | n
  | c
  | r
deriving DecidableEq, Repr

/-- A row of the table of R86: a word `w` selects the row whose `w &&& mask = pattern`. -/
structure OpRow where
  mnemonic : String
  format : Format
  pattern : CmdWord
  mask : CmdWord
deriving DecidableEq, Repr

/-- The row of R86 that an instruction belongs to. -/
def Instr.row : Instr → OpRow
  | .init => ⟨"INIT", .n, 0x1000#16, 0xFFFF#16⟩
  | .has _ => ⟨"HAS", .n, 0x2000#16, 0xFFFF#16⟩
  | .load _ _ => ⟨"LOAD", .c, 0x3000#16, 0xF0FC#16⟩
  | .adv => ⟨"ADV", .n, 0x4000#16, 0xFFFF#16⟩
  | .step => ⟨"STEP", .n, 0x5000#16, 0xFFFF#16⟩
  | .getsc _ => ⟨"GETSC", .c, 0x6000#16, 0xFFFC#16⟩
  | .loadlo _ => ⟨"LOADLO", .c, 0x7000#16, 0xFFFC#16⟩
  | .loadbr _ => ⟨"LOADBR", .c, 0x8000#16, 0xFFFC#16⟩
  | .cfgw _ _ => ⟨"CFGW", .r, 0x9000#16, 0xFF00#16⟩
  | .cfgr _ => ⟨"CFGR", .r, 0xA000#16, 0xFF00#16⟩

/-- The ten rows of R86, in its order. -/
def opcodeTable : List OpRow :=
  [Instr.init, .has 0#32, .load .red 0#4, .adv, .step, .getsc .red, .loadlo .red, .loadbr .red,
    .cfgw 0#8 0#32, .cfgr 0#8].map Instr.row

/-- The command whose bits are `w`, numbered as the opcode table numbers them: the command word is bits 15:0,
and the bits above it are the argument word (DESIGN CHOICE, log 13); bits at and above `nbits` are 0. -/
def tableCommand (nbits w : Nat) : Command :=
  { cmd := BitVec.ofNat 16 (w % 2 ^ nbits), arg := BitVec.ofNat 32 (w % 2 ^ nbits / 2 ^ 16) }

/-- The instruction the decoder reads from a row of the opcode table written as a number. -/
def decodeTableWord (nbits w : Nat) : Option Instr :=
  match decode (tableCommand nbits w) with
  | .ok i => some i
  | .error _ => none

end Sys2Proof
end

