-- ==== Sys2Proof/Machine/State.lean ====
section
/-! DEFINITION. The state of the block and of what it is connected to, as plain data (10_state.md), and the
state right after reset (R50, 70_reset_and_hazards.md R190). -/

namespace Sys2Proof.Machine

/-- Three like values, one per logical channel or per brightness plane 0, 1, 2 (10_state.md R31). -/
structure Triplet (α : Type) where
  c0 : α
  c1 : α
  c2 : α
deriving DecidableEq, Repr

/-- The configuration registers (10_state.md R24 to R30), each with the bits it implements; a reserved bit
is not stored and reads 0. Address registers keep bits `[AW-1:0]`, the bits above them are 0. The registers
of an absent option (`EXT = 0`, or a lane at or above `NLANES`) stay 0 and no command reaches them (log 10). -/
structure ConfigRegs where
  /-- `BASE` (R24). -/
  base : Addr
  /-- `NPIX` (R25). -/
  npix : BitVec 16
  /-- `SCALE` (R26). -/
  scale : BitVec 24
  /-- `DMODE` (R27). -/
  dmode : BitVec 1
  /-- `ORDER` (R28). -/
  order : BitVec 6
  /-- `EXTCTL` (R29): bit 0 `LOEN`, bits 2:1 `BRMODE`. -/
  extctl : BitVec 3
  /-- `LOBASE` (R29). -/
  lobase : Addr
  /-- `BRBASE0`, `BRBASE1`, `BRBASE2` (R29). -/
  brbase : Triplet Addr
  /-- `LOFF[l]` (R30). -/
  loff : Vector Addr 16
deriving DecidableEq, Repr

/-- The instance registers (10_state.md R31). -/
structure Inst where
  /-- `PTR`, the address of byte 0 of the current pixel. -/
  ptr : Addr
  /-- `REM`, pixels remaining, the current one included. -/
  rem : BitVec 16
  /-- `S[c]`, the scales. -/
  s : Triplet Byte
  /-- `D[c]`, the current dither offsets. -/
  d : Triplet Byte
  /-- `E[c]`, the dither increments. -/
  e : Triplet Byte
  /-- `ORD`, the latched channel-order code. -/
  ord : BitVec 6
  /-- `OFF[l]`, the latched lane offsets. -/
  off : Vector Addr 16
  /-- `XLO`, the latched `EXTCTL.LOEN`. -/
  xlo : Bool
  /-- `XBR`, the latched `EXTCTL.BRMODE`. -/
  xbr : BitVec 2
  /-- `LOPTR`, the current pixel in the low-byte plane. -/
  loptr : Addr
  /-- `BRPTR[i]`, the current entry of brightness plane `i`. -/
  brptr : Triplet Addr
deriving DecidableEq, Repr

/-- A response: the ports `rsp` and `rsp_err` (00_scope.md R17). -/
structure Response where
  word : Word
  err : Bool
deriving DecidableEq, Repr

/-- The pixel address space as the caller has filled it (20_memory.md R60, R72): the listed addresses are
the bytes the caller owns; an unlisted address holds no byte (log 8). Canonical form: addresses strictly
rising (`Memory.wf` in Machine/Ops.lean). -/
abbrev Memory := List Host.Cell

/-- What the consumer and host present to the block, one per step (00_scope.md R18, R19). -/
inductive Input where
  /-- A command on the command port, `cmd_valid = 1` (R17, R80). -/
  | command (c : Command)
  /-- The port `rst` at 1 (70_reset_and_hazards.md R190; log 7). -/
  | reset
  /-- The host (or another owner of the memory) stores one byte into the pixel address space, as R195 step 1
  does before a show call (R61, R75; log 9). The block itself never writes. -/
  | store (addr : Addr) (byte : Byte)
deriving DecidableEq, Repr

/-- The whole state. `params`, `mem` and `inputs` are the model's own fields (log 1, 8, 4). -/
structure State where
  /-- The implementation parameters (00_scope.md R8), fixed for the machine. -/
  params : Params
  /-- The configuration registers (R24 to R30). -/
  cfg : ConfigRegs
  /-- `PHASE` and the instance registers (R20, R21): `none` is IDLE, where they hold no value (log 3). -/
  inst : Option Inst
  /-- `R`, the frame counter (R22). -/
  frame : Byte
  /-- `ERR`, the sticky fault flag (R23). -/
  err : Bool
  /-- `CAUSE` (R23). -/
  cause : BitVec 4
  /-- `EINFO` (R23). -/
  einfo : CmdWord
  /-- `rsp_valid`, `rsp`, `rsp_err`: the response of the last accepted command, `none` when there was none
  (R17; log 5). -/
  rsp : Option Response
  /-- `mem_req`, `mem_addr`: the address of the `MemRead` of the last accepted command, if it had one
  (R17, R62; log 5). -/
  lastRead : Option Addr
  /-- The pixel address space. -/
  mem : Memory
  /-- What the consumer and host will present, first one first (log 4). -/
  inputs : List Input
deriving DecidableEq, Repr

/-- Why the machine stops. The block's own fault causes (60_exceptions.md R160) are NOT among these: fault
entry is a next state. -/
inductive Fault where
  /-- Raised by `LOAD`, `LOADLO`, `LOADBR` whose `MemRead` falls on an address that holds no byte: "gives such
  a read no step (stuck), never a value" (20_memory.md R72, U1). Safe. -/
  | unownedRead (addr : Nat)
  /-- Raised by a HOST store (no command of the block) at an address that is not one of the `2^AW` locations
  (R60). Safe. -/
  | noSuchAddress (addr : Nat)
deriving DecidableEq, Repr

/-- Why the model gives no meaning. No meaning of this model refuses. -/
inductive Refusal where
  /-- Raised by an arm of `exec` that has no meaning yet; no arm raises it now. Safe. -/
  | notModelled (mnemonic : String)
deriving DecidableEq, Repr

/-- The outcomes of a command or a step. -/
abbrev Result := Host.Outcome State Fault Refusal

/-- The configuration registers after reset (R50). -/
def ConfigRegs.reset : ConfigRegs where
  base := 0#32
  npix := 0#16
  scale := 0xFFFFFF#24
  dmode := 0#1
  order := 0x06#6
  extctl := 0#3
  lobase := 0#32
  brbase := ⟨0#32, 0#32, 0#32⟩
  loff := Vector.replicate 16 0#32

/-- The machine right after reset (R50, R190). Every register's value is the spec's; the instance registers
hold no value; nothing is listed in memory and nothing is presented. -/
def State.reset : State where
  params := Config.params
  cfg := ConfigRegs.reset
  inst := none
  frame := 0#8
  err := false
  cause := 0#4
  einfo := 0#16
  rsp := none
  lastRead := none
  mem := []
  inputs := []

end Sys2Proof.Machine
end

