-- ==== Sys2Proof/Machine/Flags.lean ====
section
/-! DEFINITION. The block has no arithmetic flags: no command records a carry, a zero, an overflow or a
saturation (10_state.md R34). Its flag-like state is the fault record and the phase, read as `STATUS` (R40).
The fault causes and their codes (60_exceptions.md R160). -/

namespace Sys2Proof.Machine

/-- The fault causes of R160. -/
inductive Cause where
  /-- The command word is illegal (R161). -/
  | illegalCommand
  /-- The register is unmapped, or `CFGW` to a read-only one (R162). -/
  | illegalRegister
  /-- `PHASE = IDLE` (R163). -/
  | noInstance
  /-- `REM = 0` (R165). -/
  | underrun
  /-- `INIT` with an illegal channel-order code (R166). -/
  | configOrder
  /-- `INIT` with `BRMODE = 3` (R167). -/
  | configExt
  /-- The plane is not enabled in this instance (R164). -/
  | planeDisabled
deriving DecidableEq, Repr

/-- The code of a cause (R160). -/
def Cause.code : Cause → BitVec 4
  | .illegalCommand => 1#4
  | .illegalRegister => 2#4
  | .noInstance => 3#4
  | .underrun => 4#4
  | .configOrder => 5#4
  | .configExt => 6#4
  | .planeDisabled => 7#4

/-- The register `STATUS` (R40): bit 0 `ERR`, bit 1 `ACTIVE`, bits 7:4 `CAUSE`, the others 0. -/
def statusWord (s : State) : Word :=
  0#24 ++ s.cause ++ 0#2 ++ BitVec.ofBool s.inst.isSome ++ BitVec.ofBool s.err

/-- The port `fault`, equal to `ERR` at all times (R40). -/
def faultPort (s : State) : Bool :=
  s.err

end Sys2Proof.Machine
end

