-- ==== Sys2Proof/Machine/Arith.lean ====
section
/-! DEFINITION. The arithmetic of the block: `scale8`, `qadd8`, `bitrev8` (00_scope.md R13 to R15), the dither
formulae (40_construct.md R102, R103) and address sums modulo `2^AW` (41_pull.md R119). Operands are converted
to natural numbers, the exact value is computed, and the result is narrowed at the end. -/

namespace Sys2Proof.Machine

/-- `scale8(a, b) = floor(a * (b + F) / 256)` (R13). -/
def scale8 (f : Bool) (a b : Byte) : Byte :=
  BitVec.ofNat 8 (a.toNat * (b.toNat + f.toNat) / 256)

/-- `qadd8(a, b) = min(255, a + b)` (R14). -/
def qadd8 (a b : Byte) : Byte :=
  BitVec.ofNat 8 (min 255 (a.toNat + b.toNat))

/-- `bitrev8(x)`: bit `i` of the result is bit `7-i` of `x` (R15). -/
def bitrev8 (x : Byte) : Byte :=
  x.extractLsb' 0 1 ++ x.extractLsb' 1 1 ++ x.extractLsb' 2 1 ++ x.extractLsb' 3 1 ++
    x.extractLsb' 4 1 ++ x.extractLsb' 5 1 ++ x.extractLsb' 6 1 ++ x.extractLsb' 7 1

/-- The phase `Q` of a frame counter value: masked to `K` bits and reversed over 8 bits (R102). -/
def ditherPhase (k : Nat) (r : Byte) : Byte :=
  bitrev8 (r &&& BitVec.ofNat 8 (2 ^ k - 1))

/-- The dither increment `e` of a scale: `(floor(256 / s) + 1) mod 256`, and 0 for `s = 0` (R103). -/
def ditherIncrement (s : Byte) : Byte :=
  if s = 0#8 then 0#8 else BitVec.ofNat 8 (256 / s.toNat + 1)

/-- The initial dither offset `d`: `scale8(Q, e)`, less 1 when it is not 0 (R103). -/
def ditherOffset (f : Bool) (q e : Byte) : Byte :=
  if scale8 f q e = 0#8 then 0#8 else scale8 f q e - 1#8

/-- A sum of addresses and offsets, modulo `2^AW` (R119 (g)). -/
def addrOf (aw : Nat) (n : Nat) : Addr :=
  BitVec.ofNat 32 (n % 2 ^ aw)

end Sys2Proof.Machine
end

