-- ==== Sys2Proof/Machine/Operands.lean ====
section
/-! DEFINITION. Every operand form: values indexed by a channel, the channel-order code (30_encoding.md R89 to
R92), the fields of `SCALE` and `EXTCTL`, and the effective addresses of the three plane kinds (20_memory.md
R64, R66, R67). -/

namespace Sys2Proof.Machine

/-- The value of a triplet for a channel (00_scope.md R12: 0 = R, 1 = G, 2 = B). -/
def Triplet.get {α : Type} (t : Triplet α) : Channel → α
  | .red => t.c0
  | .green => t.c1
  | .blue => t.c2

/-- The triplet of the values of a function of the channel. -/
def Triplet.tabulate {α : Type} (f : Channel → α) : Triplet α :=
  ⟨f .red, f .green, f .blue⟩

/-- `ord(code, c) = code[5 - 2*c : 4 - 2*c]`, the physical byte index of a logical channel (R90). -/
def ordField (code : BitVec 6) : Channel → BitVec 2
  | .red => code.extractLsb' 4 2
  | .green => code.extractLsb' 2 2
  | .blue => code.extractLsb' 0 2

/-- The names of the six orders: which logical channel bytes 0, 1, 2 of a pixel hold (R91). -/
inductive OrderName where
  | rgb
  | rbg
  | grb
  | gbr
  | brg
  | bgr
deriving DecidableEq, Repr

/-- The channel-order code of a name (R91). -/
def OrderName.code : OrderName → BitVec 6
  | .rgb => 0x06#6
  | .rbg => 0x09#6
  | .grb => 0x12#6
  | .gbr => 0x21#6
  | .brg => 0x18#6
  | .bgr => 0x24#6

/-- The six legal channel-order codes (R91). -/
def legalOrders : List (BitVec 6) :=
  [OrderName.rgb, .rbg, .grb, .gbr, .brg, .bgr].map OrderName.code

/-- Whether `INIT` accepts a channel-order code (R91, R92). -/
def orderLegal (code : BitVec 6) : Bool :=
  legalOrders.contains code

/-- The field of `SCALE` for a logical channel: `SCALE[8*c+7 : 8*c]` (10_state.md R26). -/
def scaleField (scale : BitVec 24) : Channel → Byte
  | .red => scale.extractLsb' 0 8
  | .green => scale.extractLsb' 8 8
  | .blue => scale.extractLsb' 16 8

/-- `EXTCTL.LOEN`, bit 0 (R29). -/
def loen (extctl : BitVec 3) : Bool :=
  extctl.getLsbD 0

/-- `EXTCTL.BRMODE`, bits 2:1 (R29). -/
def brmode (extctl : BitVec 3) : BitVec 2 :=
  extctl.extractLsb' 1 2

/-- `OFF[l]` or `LOFF[l]`. -/
def laneOffset (off : Vector Addr 16) (lane : BitVec 4) : Addr :=
  off[lane.toNat]'lane.isLt

/-- The address `LOAD c, l` reads: `(PTR + OFF[l] + ord(ORD, c)) mod 2^AW` (20_memory.md R64, 41_pull.md
R112). -/
def loadAddr (p : Params) (x : Inst) (ch : Channel) (lane : BitVec 4) : Addr :=
  addrOf p.aw (x.ptr.toNat + (laneOffset x.off lane).toNat + (ordField x.ord ch).toNat)

/-- The address `LOADLO c` reads: `(LOPTR + ord(ORD, c)) mod 2^AW` (R66, 42_extended.md R131). -/
def loadloAddr (p : Params) (x : Inst) (ch : Channel) : Addr :=
  addrOf p.aw (x.loptr.toNat + (ordField x.ord ch).toNat)

/-- The address `LOADBR c` reads: plane 0 in global mode (`XBR = 1`), plane `c` otherwise (R67, R132). -/
def loadbrAddr (x : Inst) (ch : Channel) : Addr :=
  if x.xbr = 1#2 then x.brptr.get .red else x.brptr.get ch

/-- The sample of `LOAD`: `scale8(qadd8(raw, D[c]), S[c])` (R112). `D` and `S` go by logical channel. -/
def sampleOf (p : Params) (x : Inst) (ch : Channel) (raw : Byte) : Byte :=
  scale8 p.scale8Fixed (qadd8 raw (x.d.get ch)) (x.s.get ch)

end Sys2Proof.Machine
end

