-- ==== Sys2Proof/WellFormed.lean ====
section
/-! DEFINITION. Which commands a block with given parameters has. What the types of `Instr` already rule out
(a channel 3, a lane field in `GETSC`) is refused by the decoder. -/

namespace Sys2Proof

/-- The two legality conditions that depend on the parameters: the lane of `LOAD` exists (30_encoding.md
R87 (d)), and `LOADLO`, `LOADBR` need `EXT = 1` (R87 (e)). They are decided from the command and the
parameters alone (60_exceptions.md R161). -/
def Instr.wellFormed (p : Params) : Instr → Bool
  | .init => true
  | .has _ => true
  | .load _ lane => decide (lane.toNat < p.nlanes)
  | .adv => true
  | .step => true
  | .getsc _ => true
  | .loadlo _ => p.ext
  | .loadbr _ => p.ext
  | .cfgw _ _ => true
  | .cfgr _ => true

end Sys2Proof
end

