-- ==== Sys2Proof/Machine/Ops.lean ====
section
/-! DEFINITION. The named operations the meanings share: the pixel memory, the response, fault entry
(60_exceptions.md R170) and recovery from it (43_config.md R142), the checks common to the pull commands
(41_pull.md R110), the one-byte read (20_memory.md R62), and reset (70_reset_and_hazards.md R190). -/

namespace Sys2Proof.Machine

/-- The byte at an address, `none` where no byte is held (R72). -/
def memoryRead : Memory → Nat → Option Byte
  | [], _ => none
  | (a, b) :: rest, n => if a = n then some b else memoryRead rest n

/-- Store a byte, keeping the addresses strictly rising. -/
def memoryWrite : Memory → Nat → Byte → Memory
  | [], n, v => [(n, v)]
  | (a, b) :: rest, n, v =>
    if n < a then (n, v) :: (a, b) :: rest
    else if n = a then (n, v) :: rest
    else (a, b) :: memoryWrite rest n v

/-- Every address of a memory lies above `n`. -/
def memoryAbove (n : Nat) : Memory → Bool
  | [] => true
  | (a, _) :: rest => decide (n < a) && memoryAbove n rest

/-- The canonical form: addresses strictly rising. -/
def Memory.wf : Memory → Bool
  | [] => true
  | (a, _) :: rest => memoryAbove a rest && Memory.wf rest

/-- Every address of a memory lies below `n`. -/
def memoryBelow (n : Nat) : Memory → Bool
  | [] => true
  | (a, _) :: rest => decide (a < n) && memoryBelow n rest

/-- The response of a command that does not fault: `rsp <- v`, `rsp_err = 0` (30_encoding.md R85), and no
`MemRead`. -/
def respond (v : Word) (s : State) : State :=
  { s with rsp := some ⟨v, false⟩, lastRead := none }

/-- FAULT ENTRY, `raise X(cmd)` (R170): the first fault is recorded in `CAUSE` and `EINFO`, `ERR` is set, the
instance is destroyed, and the response carries the code. Nothing else is written and no byte is read. -/
def raise (x : Cause) (cmd : CmdWord) (s : State) : State :=
  { s with
    cause := if s.err then s.cause else x.code
    einfo := if s.err then s.einfo else cmd
    err := true
    inst := none
    rsp := some ⟨x.code.setWidth 32, true⟩
    lastRead := none }

/-- RECOVERY (R142, R173): `ERR`, `CAUSE` and `EINFO` to 0. There is no return from a fault: it saved no
context, and the instance stays destroyed until the next `INIT`. -/
def clearErr (s : State) : State :=
  { s with err := false, cause := 0#4, einfo := 0#16 }

/-- A command that faults: fault entry with its own command word, as the next state. -/
def trap (i : Instr) (x : Cause) (s : State) : Result :=
  .next (raise x (encode i).cmd s)

/-- The first two checks of a command that acts on the instance, in the order of R110: `IllegalCommand` (R87
(d), (e)), then `NoInstance` (R163). -/
def onInst (i : Instr) (s : State) (body : Inst → Result) : Result :=
  if i.wellFormed s.params then
    match s.inst with
    | some x => body x
    | none => trap i .noInstance s
  else trap i .illegalCommand s

/-- The check `Underrun`: a pixel remains (R165). -/
def onPixel (i : Instr) (s : State) (x : Inst) (body : Result) : Result :=
  if x.rem = 0#16 then trap i .underrun s else body

/-- `MemRead(addr, 1)` (R62) and the response made of the byte. An address that holds no byte gives the
command no step (R72). -/
def readByte (s : State) (a : Addr) (answer : Byte → Word) : Result :=
  match memoryRead s.mem a.toNat with
  | some b => .next { respond (answer b) s with lastRead := some a }
  | none => .fault (.unownedRead a.toNat)

/-- RESET (R190, R191): every register of the block as R50 says; the memory is neither read nor written, and
what the host will present next is the host's. -/
def resetBlock (s : State) : State :=
  { State.reset with params := s.params, mem := s.mem, inputs := s.inputs }

/-- A host store (R61, R195 step 1): one byte, at one of the `2^AW` locations (R60). -/
def hostStore (a : Addr) (b : Byte) (s : State) : Result :=
  if a.toNat < 2 ^ s.params.aw then .next { s with mem := memoryWrite s.mem a.toNat b }
  else .fault (.noSuchAddress a.toNat)

end Sys2Proof.Machine
end

