-- ==== Sys2Proof/Machine/Registers.lean ====
section
/-! DEFINITION. The register map (10_state.md R24 to R30, R40 to R45): the number of each register, which are
mapped under given parameters, what each reads as, and what `CFGW` does to each. -/

namespace Sys2Proof.Machine

/-- The registers `CFGW` and `CFGR` name (R45). -/
inductive Reg where
  | base
  | npix
  | scale
  | dmode
  | order
  | extctl
  | lobase
  | brbase (i : Channel)
  | loff (l : BitVec 4)
  | status
  | einfo
  | frame
  | params
  | ident
  | vptr
  | vrem
  | vd
  | ve
  | vs
  | vord
  | vloptr
  | vbrptr (i : Channel)
  | voff (l : BitVec 4)
deriving DecidableEq, Repr

/-- The register numbers of R45. -/
def Reg.number : Reg → Nat
  | .base => 0x00
  | .npix => 0x01
  | .scale => 0x02
  | .dmode => 0x03
  | .order => 0x04
  | .extctl => 0x05
  | .lobase => 0x06
  | .brbase i => 0x07 + i.bits.toNat
  | .loff l => 0x10 + l.toNat
  | .status => 0x20
  | .einfo => 0x21
  | .frame => 0x22
  | .params => 0x23
  | .ident => 0x24
  | .vptr => 0x30
  | .vrem => 0x31
  | .vd => 0x32
  | .ve => 0x33
  | .vs => 0x34
  | .vord => 0x35
  | .vloptr => 0x36
  | .vbrptr i => 0x37 + i.bits.toNat
  | .voff l => 0x40 + l.toNat

/-- Which registers a block with these parameters has (R29, R30, R41, R162). -/
def Reg.present (p : Params) : Reg → Bool
  | .extctl => p.ext
  | .lobase => p.ext
  | .brbase _ => p.ext
  | .loff l => decide (l.toNat < p.nlanes)
  | .vloptr => p.ext
  | .vbrptr _ => p.ext
  | .voff l => decide (l.toNat < p.nlanes)
  | .base => true
  | .npix => true
  | .scale => true
  | .dmode => true
  | .order => true
  | .status => true
  | .einfo => true
  | .frame => true
  | .params => true
  | .ident => true
  | .vptr => true
  | .vrem => true
  | .vd => true
  | .ve => true
  | .vs => true
  | .vord => true

/-- The sixteen lane numbers. -/
def allLanes : List (BitVec 4) :=
  [0#4, 1#4, 2#4, 3#4, 4#4, 5#4, 6#4, 7#4, 8#4, 9#4, 10#4, 11#4, 12#4, 13#4, 14#4, 15#4]

/-- Every register there can be. -/
def allRegs : List Reg :=
  [.base, .npix, .scale, .dmode, .order, .extctl, .lobase, .brbase .red, .brbase .green, .brbase .blue] ++
    allLanes.map .loff ++
    [.status, .einfo, .frame, .params, .ident, .vptr, .vrem, .vd, .ve, .vs, .vord, .vloptr,
      .vbrptr .red, .vbrptr .green, .vbrptr .blue] ++
    allLanes.map .voff

/-- The register a number maps to, `none` where it is unmapped (R45). -/
def regOf (p : Params) (n : BitVec 8) : Option Reg :=
  allRegs.find? fun r => decide (r.number = n.toNat) && r.present p

/-- Three bytes in a word, that of channel 0 in bits 7:0 (R26, R41). -/
def packTriplet (t : Triplet Byte) : Word :=
  0#8 ++ t.c2 ++ t.c1 ++ t.c0

/-- The constant register `PARAMS` (R43): bits 3:0 `K`, 8:4 `NLANES`, 9 `EXT`, 10 `F`, 21:16 `AW`. -/
def paramsWord (p : Params) : Word :=
  0#10 ++ BitVec.ofNat 6 p.aw ++ 0#5 ++ BitVec.ofBool p.scale8Fixed ++ BitVec.ofBool p.ext ++
    BitVec.ofNat 5 p.nlanes ++ BitVec.ofNat 4 p.k

/-- The constant register `ID` (R44): ASCII "FL5B". -/
def identWord : Word :=
  0x464C3542#32

/-- The register `VORD` (R41): `ORD`, and with `EXT = 1` also `XLO` and `XBR`. -/
def vordWord (p : Params) (x : Inst) : Word :=
  if p.ext then 0#23 ++ x.xbr ++ BitVec.ofBool x.xlo ++ x.ord else 0#26 ++ x.ord

/-- The read value of a register (R24 to R30, R40 to R44). `none` only for a register of the instance view
(R41) while `PHASE = IDLE`: then it holds no value (R21). -/
def readReg (s : State) : Reg → Option Word
  | .base => some s.cfg.base
  | .npix => some (s.cfg.npix.setWidth 32)
  | .scale => some (s.cfg.scale.setWidth 32)
  | .dmode => some (s.cfg.dmode.setWidth 32)
  | .order => some (s.cfg.order.setWidth 32)
  | .extctl => some (s.cfg.extctl.setWidth 32)
  | .lobase => some s.cfg.lobase
  | .brbase i => some (s.cfg.brbase.get i)
  | .loff l => some (laneOffset s.cfg.loff l)
  | .status => some (statusWord s)
  | .einfo => some (s.einfo.setWidth 32)
  | .frame => some (s.frame.setWidth 32)
  | .params => some (paramsWord s.params)
  | .ident => some identWord
  | .vptr => s.inst.map fun x => x.ptr
  | .vrem => s.inst.map fun x => x.rem.setWidth 32
  | .vd => s.inst.map fun x => packTriplet x.d
  | .ve => s.inst.map fun x => packTriplet x.e
  | .vs => s.inst.map fun x => packTriplet x.s
  | .vord => s.inst.map fun x => vordWord s.params x
  | .vloptr => s.inst.map fun x => x.loptr
  | .vbrptr i => s.inst.map fun x => x.brptr.get i
  | .voff l => s.inst.map fun x => laneOffset x.off l

/-- A triplet with the value of one channel replaced. -/
def Triplet.set {α : Type} (t : Triplet α) (ch : Channel) (v : α) : Triplet α :=
  match ch with
  | .red => { t with c0 := v }
  | .green => { t with c1 := v }
  | .blue => { t with c2 := v }

/-- The configuration registers after `CFGW` of a value: each keeps the bits it implements and drops the
reserved ones (43_config.md R141). `none` for the registers that are not configuration registers. -/
def writeCfg (p : Params) (c : ConfigRegs) (v : Word) : Reg → Option ConfigRegs
  | .base => some { c with base := addrOf p.aw v.toNat }
  | .npix => some { c with npix := v.setWidth 16 }
  | .scale => some { c with scale := v.setWidth 24 }
  | .dmode => some { c with dmode := v.setWidth 1 }
  | .order => some { c with order := v.setWidth 6 }
  | .extctl => some { c with extctl := v.setWidth 3 }
  | .lobase => some { c with lobase := addrOf p.aw v.toNat }
  | .brbase i => some { c with brbase := c.brbase.set i (addrOf p.aw v.toNat) }
  | .loff l => some { c with loff := c.loff.set l.toNat (addrOf p.aw v.toNat) l.isLt }
  | .status => none
  | .einfo => none
  | .frame => none
  | .params => none
  | .ident => none
  | .vptr => none
  | .vrem => none
  | .vd => none
  | .ve => none
  | .vs => none
  | .vord => none
  | .vloptr => none
  | .vbrptr _ => none
  | .voff _ => none

/-- What `CFGW` does to a mapped register (R141): `STATUS` as R142 says, a configuration register keeps its
bits, a read-only register (`none`) is not written. -/
def writeReg (s : State) (r : Reg) (v : Word) : Option State :=
  if r = .status then some (if v.getLsbD 0 then clearErr s else s)
  else (writeCfg s.params s.cfg v r).map fun c => { s with cfg := c }

end Sys2Proof.Machine
end

