-- ==== Sys2Proof/Machine/ConfigAccess.lean ====
section
/-! DEFINITION. The register access commands `CFGW`, `CFGR` (43_config.md R140 to R143). -/

namespace Sys2Proof.Machine

/-- `CFGW reg, value` (R141, R142): an unmapped or read-only register faults; an existing instance is not
affected. -/
def execCfgw (reg : BitVec 8) (value : Word) (s : State) : Result :=
  match regOf s.params reg with
  | none => trap (.cfgw reg value) .illegalRegister s
  | some r =>
    match writeReg s r value with
    | none => trap (.cfgw reg value) .illegalRegister s
    | some t => .next (respond 0#32 t)

/-- `CFGR reg` (R143): an unmapped register faults; a register of the instance view needs an instance; no
read has a side effect. -/
def execCfgr (reg : BitVec 8) (s : State) : Result :=
  match regOf s.params reg with
  | none => trap (.cfgr reg) .illegalRegister s
  | some r =>
    match readReg s r with
    | none => trap (.cfgr reg) .noInstance s
    | some v => .next (respond v s)

end Sys2Proof.Machine
end

