-- ==== Sys2Proof/Machine/Construct.lean ====
section
/-! DEFINITION. Construction: `INIT` (40_construct.md R100 to R103). -/

namespace Sys2Proof.Machine

/-- The checks of `INIT`, the first that fails decides the fault (R101). -/
def initCheck (s : State) : Option Cause :=
  if orderLegal s.cfg.order then
    if s.params.ext && decide (brmode s.cfg.extctl = 3#2) then some .configExt else none
  else some .configOrder

/-- The frame counter after `INIT` (10_state.md R22): advanced first, and only when `DMODE = 1` (R102). -/
def initFrame (s : State) : Byte :=
  if s.cfg.dmode = 1#1 then s.frame + 1#8 else s.frame

/-- `E[c]` at construction (R100 step 3, R103): 0 when dithering is off. -/
def initIncrement (s : State) (ch : Channel) : Byte :=
  if s.cfg.dmode = 1#1 then ditherIncrement (scaleField s.cfg.scale ch) else 0#8

/-- `D[c]` at construction (R100 step 3, R102, R103): 0 when dithering is off. The phase uses the counter
after its advance. -/
def initOffset (s : State) (ch : Channel) : Byte :=
  if s.cfg.dmode = 1#1 then
    ditherOffset s.params.scale8Fixed (ditherPhase s.params.k (s.frame + 1#8)) (initIncrement s ch)
  else 0#8

/-- The instance `INIT` constructs (R100 steps 2 and 3). Without `EXT` the plane registers do not exist and
stay 0 (log 10). -/
def initInst (s : State) : Inst where
  ptr := s.cfg.base
  rem := s.cfg.npix
  s := Triplet.tabulate (scaleField s.cfg.scale)
  d := Triplet.tabulate (initOffset s)
  e := Triplet.tabulate (initIncrement s)
  ord := s.cfg.order
  off := s.cfg.loff
  xlo := if s.params.ext then loen s.cfg.extctl else false
  xbr := if s.params.ext then brmode s.cfg.extctl else 0#2
  loptr := if s.params.ext then s.cfg.lobase else 0#32
  brptr := if s.params.ext then s.cfg.brbase else ⟨0#32, 0#32, 0#32⟩

/-- `INIT` (R100): legal in either phase and whatever `ERR` is; a faulting `INIT` has no effect of its own
(R101). -/
def execInit (s : State) : Result :=
  match initCheck s with
  | some x => trap .init x s
  | none => .next (respond 0#32 { s with frame := initFrame s, inst := some (initInst s) })

end Sys2Proof.Machine
end

