-- ==== Sys2Proof/Machine/Extended.lean ====
section
/-! DEFINITION. The extended-plane commands `LOADLO`, `LOADBR` (42_extended.md R130 to R132): stored values,
unscaled and undithered, without lanes. -/

namespace Sys2Proof.Machine

/-- `LOADLO c` (R131). The checks in the order of R130. -/
def execLoadlo (ch : Channel) (s : State) : Result :=
  onInst (.loadlo ch) s fun x =>
    if x.xlo then
      onPixel (.loadlo ch) s x
        (readByte s (loadloAddr s.params x ch) fun b => b.setWidth 32)
    else trap (.loadlo ch) .planeDisabled s

/-- `LOADBR c` (R132): bits 4:0 of the stored byte. The checks in the order of R130. -/
def execLoadbr (ch : Channel) (s : State) : Result :=
  onInst (.loadbr ch) s fun x =>
    if x.xbr = 0#2 then trap (.loadbr ch) .planeDisabled s
    else
      onPixel (.loadbr ch) s x
        (readByte s (loadbrAddr x ch) fun b => (b.extractLsb' 0 5).setWidth 32)

end Sys2Proof.Machine
end

