-- ==== Sys2Proof/Machine/Pull.lean ====
section
/-! DEFINITION. The pull commands `HAS`, `LOAD`, `ADV`, `STEP`, `GETSC` (41_pull.md R110 to R118). -/

namespace Sys2Proof.Machine

/-- `HAS n` (R111): 1 if `REM >= n`, compared over 32 bits, else 0. -/
def execHas (n : Word) (s : State) : Result :=
  onInst (.has n) s fun x =>
    .next (respond (if n.toNat ≤ x.rem.toNat then 1#32 else 0#32) s)

/-- `LOAD c, l` (R112): one byte read; the cursor and the dither state do not move. -/
def execLoad (ch : Channel) (lane : BitVec 4) (s : State) : Result :=
  onInst (.load ch lane) s fun x =>
    onPixel (.load ch lane) s x
      (readByte s (loadAddr s.params x ch lane) fun raw => (sampleOf s.params x ch raw).setWidth 32)

/-- The instance after `ADV` (R114): the cursor forward by one pixel, and with `EXT = 1` all plane pointers in
lock-step, enabled or not. -/
def advInst (p : Params) (x : Inst) : Inst :=
  { x with
    ptr := addrOf p.aw (x.ptr.toNat + 3)
    rem := x.rem - 1#16
    loptr := if p.ext then addrOf p.aw (x.loptr.toNat + 3) else x.loptr
    brptr := if p.ext then Triplet.tabulate fun c => addrOf p.aw ((x.brptr.get c).toNat + 1) else x.brptr }

/-- `ADV` (R114). -/
def execAdv (s : State) : Result :=
  onInst .adv s fun x =>
    onPixel .adv s x (.next (respond 0#32 { s with inst := some (advInst s.params x) }))

/-- The instance after `STEP` (R116): `D[c] <- E[c] - D[c]` in all three channels. -/
def stepInst (x : Inst) : Inst :=
  { x with d := Triplet.tabulate fun c => x.e.get c - x.d.get c }

/-- `STEP` (R116): legal with `REM = 0`. -/
def execStep (s : State) : Result :=
  onInst .step s fun x =>
    .next (respond 0#32 { s with inst := some (stepInst x) })

/-- `GETSC c` (R118): the latched scale; legal with `REM = 0`. -/
def execGetsc (ch : Channel) (s : State) : Result :=
  onInst (.getsc ch) s fun x =>
    .next (respond ((x.s.get ch).setWidth 32) s)

end Sys2Proof.Machine
end

