-- ==== Sys2Proof/Machine/Dispatch.lean ====
section
/-! DEFINITION. The meaning of each command of 30_encoding.md R86, one arm each. -/

namespace Sys2Proof.Machine

/-- What a command does (R86), as one atomic step of the block (00_scope.md R18). -/
def exec (i : Instr) (s : State) : Host.Outcome State Fault Refusal :=
  match i with
  | .init => Sys2Proof.Machine.execInit s
  | .has n => Sys2Proof.Machine.execHas n s
  | .load ch lane => Sys2Proof.Machine.execLoad ch lane s
  | .adv => Sys2Proof.Machine.execAdv s
  | .step => Sys2Proof.Machine.execStep s
  | .getsc ch => Sys2Proof.Machine.execGetsc ch s
  | .loadlo ch => Sys2Proof.Machine.execLoadlo ch s
  | .loadbr ch => Sys2Proof.Machine.execLoadbr ch s
  | .cfgw reg value => Sys2Proof.Machine.execCfgw reg value s
  | .cfgr reg => Sys2Proof.Machine.execCfgr reg s

end Sys2Proof.Machine
end

