-- ==== Sys2Proof/Machine/Step.lean ====
section
/-! DEFINITION. One step of the machine: the block accepts what the consumer and host present next
(00_scope.md R18, R19), and does nothing when nothing is presented. -/

namespace Sys2Proof.Machine

/-- One step. A command is decoded and run; an illegal command word takes `IllegalCommand` (30_encoding.md
R87); `rst` resets (R190); a host store changes one byte of memory; with nothing presented the block is idle
and keeps all its state (R19, 60_exceptions.md R185). -/
def step (s : State) : Host.Outcome State Fault Refusal :=
  match s.inputs with
  | [] => .next s
  | .command c :: rest =>
    match decode c with
    | .ok i => exec i { s with inputs := rest }
    | .error _ => .next (raise .illegalCommand c.cmd { s with inputs := rest })
  | .reset :: rest => .next (resetBlock { s with inputs := rest })
  | .store a b :: rest => hostStore a b { s with inputs := rest }

/-- The state in which the command of an opcode-table word is the next input. -/
def State.withFetchWord (s : State) (nbits w : Nat) : State :=
  { s with inputs := .command (tableCommand nbits w) :: s.inputs }

end Sys2Proof.Machine
end

