-- ==== Sys2Proof/Machine/HostFunctions.lean ====
section
/-! DEFINITION. The host-side functions the spec fixes (46_host_functions.md R150 to R154): the combined
adjustment that produces the scale triplet, and the set-up of a show call (70_reset_and_hazards.md R195). They
are not commands of the block. -/

namespace Sys2Proof.Machine

/-- One channel of `adjust`: `min(255, floor((corr + 1) * (temp + 1) * brightness / 65536))` (R151). -/
def adjustChannel (brightness corr temp : Byte) : Byte :=
  BitVec.ofNat 8 (min 255 ((corr.toNat + 1) * (temp.toNat + 1) * brightness.toNat / 65536))

/-- `adjust(brightness, corr, temp)` (R151), and with `FLAT = 1` the flat brightness of R153. -/
def adjust (flat : Bool) (brightness : Byte) (corr temp : Triplet Byte) : Triplet Byte :=
  Triplet.tabulate fun c =>
    if flat then brightness else adjustChannel brightness (corr.get c) (temp.get c)

/-- The two ways a host obtains the triplet it writes to `SCALE` (R150). -/
inductive ShowScale where
  /-- `show(scale)`: an explicit triplet. -/
  | explicit (scale : Triplet Byte)
  /-- `show(brightness)`: the adjustment of the node's correction and temperature. -/
  | brightness (flat : Bool) (value : Byte) (corr temp : Triplet Byte)
deriving DecidableEq, Repr

/-- The triplet the host writes (R150). -/
def hostScale : ShowScale → Triplet Byte
  | .explicit scale => scale
  | .brightness flat value corr temp => adjust flat value corr temp

/-- What the host knows of the planes (R195 step 7). -/
structure ShowPlanes where
  extctl : BitVec 3
  lobase : Addr
  brbase : Triplet Addr
deriving DecidableEq, Repr

/-- What the Device Bridge takes from the node and the adapter (R154). -/
structure ShowCall where
  base : Addr
  npix : BitVec 16
  scale : ShowScale
  dither : Bool
  order : BitVec 6
  lanes : List (BitVec 4 × Addr)
  planes : Option ShowPlanes
deriving DecidableEq, Repr

/-- `CFGW` of a register by name. -/
def cfgwReg (r : Reg) (value : Word) : Instr :=
  .cfgw (BitVec.ofNat 8 r.number) value

/-- `CFGR` of a register by name. -/
def cfgrReg (r : Reg) : Instr :=
  .cfgr (BitVec.ofNat 8 r.number)

/-- Step 7 of R195, when planes are used. -/
def planesSetup : Option ShowPlanes → List Instr
  | none => []
  | some pl =>
    [cfgwReg .extctl (pl.extctl.setWidth 32), cfgwReg .lobase pl.lobase,
      cfgwReg (.brbase .red) pl.brbase.c0, cfgwReg (.brbase .green) pl.brbase.c1,
      cfgwReg (.brbase .blue) pl.brbase.c2]

/-- Steps 2 to 8 of R195: configure, then construct. -/
def showSetup (c : ShowCall) : List Instr :=
  [cfgwReg .base c.base, cfgwReg .npix (c.npix.setWidth 32),
    cfgwReg .scale (packTriplet (hostScale c.scale)),
    cfgwReg .dmode (if c.dither then 1#32 else 0#32), cfgwReg .order (c.order.setWidth 32)] ++
  (c.lanes.map fun l => cfgwReg (.loff l.1) l.2) ++ planesSetup c.planes ++ [.init]

/-- Step 1 of R195, then steps 2 to 8, as what the host presents to the block. -/
def showInputs (fill : List (Addr × Byte)) (c : ShowCall) : List Input :=
  (fill.map fun ab => Input.store ab.1 ab.2) ++ (showSetup c).map fun i => Input.command (encode i)

end Sys2Proof.Machine
end

