-- ==== Sys2Proof/Machine/Assembler.lean ====
section
/-! DEFINITION. The assembler syntax and the pseudo-instructions (30_encoding.md R93, R94). Where R93 leaves
the lexical details open they are chosen as log 17 says. -/

namespace Sys2Proof.Machine

/-- The pseudo-instructions of R94. -/
inductive Pseudo where
  | setbuf (base n : Word)
  | setscale (r g b : Byte)
  | setorder (name : OrderName)
  | dither (on : Bool)
  | clrerr
  | rdstat
  | pixel
deriving DecidableEq, Repr

/-- The expansions of R94. -/
def Pseudo.expand : Pseudo → List Instr
  | .setbuf base n => [cfgwReg .base base, cfgwReg .npix n]
  | .setscale r g b => [cfgwReg .scale (BitVec.ofNat 32 (r.toNat + 256 * g.toNat + 65536 * b.toNat))]
  | .setorder name => [cfgwReg .order (name.code.setWidth 32)]
  | .dither on => [cfgwReg .dmode (if on then 1#32 else 0#32)]
  | .clrerr => [cfgwReg .status 1#32]
  | .rdstat => [cfgrReg .status]
  | .pixel => [.load .red 0#4, .load .green 0#4, .load .blue 0#4, .adv, .step]

/-- The value of a digit in a base up to 16. -/
def digitValue (base : Nat) (c : Char) : Option Nat :=
  let n := c.toNat
  let v :=
    if 48 ≤ n ∧ n ≤ 57 then n - 48
    else if 65 ≤ n ∧ n ≤ 70 then n - 55
    else if 97 ≤ n ∧ n ≤ 102 then n - 87
    else 16
  if v < base then some v else none

/-- The digits of a number after `acc`. -/
def digitsFrom (base : Nat) : Nat → List Char → Option Nat
  | acc, [] => some acc
  | acc, c :: cs =>
    match digitValue base c with
    | some d => digitsFrom base (acc * base + d) cs
    | none => none

/-- A number: `0x` hexadecimal, `0b` binary, otherwise decimal (00_scope.md R10). -/
def parseNumber (w : List Char) : Option Nat :=
  match w with
  | [] => none
  | '0' :: 'x' :: c :: cs => digitsFrom 16 0 (c :: cs)
  | '0' :: 'b' :: c :: cs => digitsFrom 2 0 (c :: cs)
  | c :: cs => digitsFrom 10 0 (c :: cs)

/-- A number that fits a field of `n` bits. -/
def parseField (n : Nat) (w : List Char) : Option (BitVec n) :=
  match parseNumber w with
  | some v => if v < 2 ^ n then some (BitVec.ofNat n v) else none
  | none => none

/-- A channel operand: `R`, `G`, `B` or `0`, `1`, `2` (R93). -/
def parseChannel (w : List Char) : Option Channel :=
  match w with
  | ['R'] => some .red
  | ['G'] => some .green
  | ['B'] => some .blue
  | ['0'] => some .red
  | ['1'] => some .green
  | ['2'] => some .blue
  | _ => none

/-- The decimal names of the sixteen lanes. -/
def laneNames : List String :=
  ["0", "1", "2", "3", "4", "5", "6", "7", "8", "9", "10", "11", "12", "13", "14", "15"]

/-- The register names of R93. -/
def regNames : List (String × Reg) :=
  [("BASE", .base), ("NPIX", .npix), ("SCALE", .scale), ("DMODE", .dmode), ("ORDER", .order),
    ("EXTCTL", .extctl), ("LOBASE", .lobase), ("BRBASE0", .brbase .red), ("BRBASE1", .brbase .green),
    ("BRBASE2", .brbase .blue), ("STATUS", .status), ("EINFO", .einfo), ("FRAME", .frame),
    ("PARAMS", .params), ("ID", .ident), ("VPTR", .vptr), ("VREM", .vrem), ("VD", .vd), ("VE", .ve),
    ("VS", .vs), ("VORD", .vord), ("VLOPTR", .vloptr), ("VBRPTR0", .vbrptr .red),
    ("VBRPTR1", .vbrptr .green), ("VBRPTR2", .vbrptr .blue)] ++
  (List.zip laneNames allLanes).map (fun nl => ("LOFF" ++ nl.1, Reg.loff nl.2)) ++
  (List.zip laneNames allLanes).map (fun nl => ("VOFF" ++ nl.1, Reg.voff nl.2))

/-- A register operand: a register name or a number (R93). -/
def parseReg (w : List Char) : Option (BitVec 8) :=
  match regNames.lookup (String.ofList w) with
  | some r => some (BitVec.ofNat 8 r.number)
  | none => parseField 8 w

/-- The name of an order (R91). -/
def parseOrder (w : List Char) : Option OrderName :=
  match w with
  | ['R', 'G', 'B'] => some .rgb
  | ['R', 'B', 'G'] => some .rbg
  | ['G', 'R', 'B'] => some .grb
  | ['G', 'B', 'R'] => some .gbr
  | ['B', 'R', 'G'] => some .brg
  | ['B', 'G', 'R'] => some .bgr
  | _ => none

/-- Cut a text at every separator. -/
def splitAtChar (sep : Char) : List Char → List (List Char)
  | [] => [[]]
  | c :: cs =>
    if c = sep then [] :: splitAtChar sep cs
    else
      match splitAtChar sep cs with
      | [] => [[c]]
      | w :: ws => (c :: w) :: ws

/-- A blank or a tab. -/
def isBlank (c : Char) : Bool :=
  decide (c = ' ') || decide (c = '\t')

/-- A text without the blanks around it. -/
def trimBlanks (w : List Char) : List Char :=
  ((w.dropWhile isBlank).reverse.dropWhile isBlank).reverse

/-- The instructions of a mnemonic and its operands (R93, R94). -/
def parseForm (mnemonic : String) (ops : List (List Char)) : Option (List Instr) :=
  match mnemonic, ops with
  | "INIT", [] => some [.init]
  | "HAS", [n] => (parseField 32 n).map fun n => [.has n]
  | "LOAD", [c] => (parseChannel c).map fun c => [.load c 0#4]
  | "LOAD", [c, l] =>
    match parseChannel c, parseField 4 l with
    | some c, some l => some [.load c l]
    | _, _ => none
  | "ADV", [] => some [.adv]
  | "STEP", [] => some [.step]
  | "GETSC", [c] => (parseChannel c).map fun c => [.getsc c]
  | "LOADLO", [c] => (parseChannel c).map fun c => [.loadlo c]
  | "LOADBR", [c] => (parseChannel c).map fun c => [.loadbr c]
  | "CFGW", [r, v] =>
    match parseReg r, parseField 32 v with
    | some r, some v => some [.cfgw r v]
    | _, _ => none
  | "CFGR", [r] => (parseReg r).map fun r => [.cfgr r]
  | "SETBUF", [b, n] =>
    match parseField 32 b, parseField 32 n with
    | some b, some n => some (Pseudo.setbuf b n).expand
    | _, _ => none
  | "SETSCALE", [r, g, b] =>
    match parseField 8 r, parseField 8 g, parseField 8 b with
    | some r, some g, some b => some (Pseudo.setscale r g b).expand
    | _, _, _ => none
  | "SETORDER", [o] => (parseOrder o).map fun o => (Pseudo.setorder o).expand
  | "DITHER", [['o', 'n']] => some (Pseudo.dither true).expand
  | "DITHER", [['o', 'f', 'f']] => some (Pseudo.dither false).expand
  | "CLRERR", [] => some Pseudo.clrerr.expand
  | "RDSTAT", [] => some Pseudo.rdstat.expand
  | "PIXEL", [] => some Pseudo.pixel.expand
  | _, _ => none

/-- One line of assembly (R93): `;` starts a comment; an empty line is no command; `none` is a line that is
not of the syntax. -/
def parseLine (line : String) : Option (List Instr) :=
  let text := trimBlanks (line.toList.takeWhile fun c => decide (c ≠ ';'))
  let mnemonic := text.takeWhile fun c => !isBlank c
  let rest := trimBlanks (text.dropWhile fun c => !isBlank c)
  if mnemonic.isEmpty then some []
  else parseForm (String.ofList mnemonic) (if rest.isEmpty then [] else (splitAtChar ',' rest).map trimBlanks)

/-- The command and argument words of a listing, a line at a time (R93). -/
def assemble : List String → Option (List Command)
  | [] => some []
  | line :: lines =>
    match parseLine line, assemble lines with
    | some is, some cs => some (is.map encode ++ cs)
    | _, _ => none

end Sys2Proof.Machine
end

