-- ==== Sys2Proof/Machine/Consumer.lean ====
section
/-! DEFINITION. The consumer of the block: a sequence of commands, and the canonical pull loop
(70_reset_and_hazards.md R206), whose decisions are the consumer's (41_pull.md R120). -/

namespace Sys2Proof.Machine

/-- Commands one after the other, up to the first that stops the machine. -/
def runInstrs : List Instr → State → Result
  | [], s => .next s
  | i :: is, s =>
    match exec i s with
    | .next t => runInstrs is t
    | .fault f => .fault f
    | .refused r => .refused r

/-- The body of the pull loop of an adapter that wants R, G, B: the expansion of `PIXEL` (R94). -/
def pixelBody : List Instr :=
  [.load .red 0#4, .load .green 0#4, .load .blue 0#4, .adv, .step]

/-- `while HAS 1: { LOAD ...; ADV; STEP }` (R206), at most `n` times. -/
def canonicalLoop : Nat → State → Result
  | 0, s => .next s
  | n + 1, s =>
    match exec (.has 1#32) s with
    | .next t =>
      if t.rsp = some ⟨1#32, false⟩ then
        match runInstrs pixelBody t with
        | .next u => canonicalLoop n u
        | .fault f => .fault f
        | .refused r => .refused r
      else .next t
    | .fault f => .fault f
    | .refused r => .refused r

end Sys2Proof.Machine
end

