-- ==== Sys2Proof/Machine/Ports.lean ====
section
/-! DEFINITION. The ports of the block as functions of the state between commands (00_scope.md R17). The input
ports `cmd_valid`, `cmd`, `arg`, `rst` are the head of `inputs`; `fault` is `faultPort`; `clk` and the waits
inside one command are not modelled (log 15). -/

namespace Sys2Proof.Machine

/-- `cmd_ready`: between commands the block accepts a command (R18, R190). -/
def cmdReady (_ : State) : Bool := true

/-- `cmd_valid`: a command is presented. -/
def cmdValid (s : State) : Bool :=
  match s.inputs with
  | .command _ :: _ => true
  | .reset :: _ => false
  | .store _ _ :: _ => false
  | [] => false

/-- `rsp_valid`. -/
def rspValid (s : State) : Bool := s.rsp.isSome

/-- `rsp`, which holds no value while `rsp_valid = 0`. -/
def rspWord (s : State) : Option Word := s.rsp.map fun r => r.word

/-- `rsp_err`: 0 after reset (R190). -/
def rspErr (s : State) : Bool :=
  match s.rsp with
  | some r => r.err
  | none => false

/-- `mem_req`: the last command requested a byte. -/
def memReq (s : State) : Bool := s.lastRead.isSome

/-- `mem_addr`, which holds no value while `mem_req = 0`. -/
def memAddr (s : State) : Option Addr := s.lastRead

end Sys2Proof.Machine
end

