-- ==== Sys2Proof/Safety.lean ====
section
/-! DEFINITION. The terms the statements use: the invariant of the state, which fault a command raises first
(60_exceptions.md R172), which words are illegal (30_encoding.md R87), the declared extents (20_memory.md R65
to R67) and when the host owns what an instance will read (70_reset_and_hazards.md R196). Each is written from
the rules and apart from the meanings, so that a statement compares two readings. -/

namespace Sys2Proof.Machine

/-! ### The invariant -/

/-- An address of the `2^AW` locations (R60). -/
def addrFits (p : Params) (a : Addr) : Bool :=
  decide (a.toNat < 2 ^ p.aw)

/-- Three addresses that fit. -/
def tripletFits (p : Params) (t : Triplet Addr) : Bool :=
  addrFits p t.c0 && (addrFits p t.c1 && addrFits p t.c2)

/-- Lane offsets that fit, 0 for the lanes a block with these parameters does not have (R30, R31). -/
def lanesFit (p : Params) (off : Vector Addr 16) : Bool :=
  allLanes.all fun l =>
    addrFits p (laneOffset off l) && (decide (l.toNat < p.nlanes) || decide (laneOffset off l = 0#32))

/-- The configuration registers hold no reserved bit and nothing of an absent option (R24 to R30). -/
def cfgWf (p : Params) (c : ConfigRegs) : Bool :=
  (addrFits p c.base && (addrFits p c.lobase && (tripletFits p c.brbase && lanesFit p c.loff))) &&
    (p.ext || (decide (c.extctl = 0#3) && (decide (c.lobase = 0#32) &&
      decide (c.brbase = ⟨0#32, 0#32, 0#32⟩))))

/-- `D[c] <= E[c]` in every channel (10_state.md R32 (c)). -/
def ditherWf (x : Inst) : Bool :=
  decide (x.d.c0 ≤ x.e.c0) && (decide (x.d.c1 ≤ x.e.c1) && decide (x.d.c2 ≤ x.e.c2))

/-- The instance registers: addresses fit, `ORD` is one of the six legal codes (R92), R32 (c) holds, `XBR = 3`
does not occur (R132), nothing of an absent option. -/
def instWf (p : Params) (x : Inst) : Bool :=
  (addrFits p x.ptr && (addrFits p x.loptr && (tripletFits p x.brptr && lanesFit p x.off))) &&
    ((orderLegal x.ord && (ditherWf x && !decide (x.xbr = 3#2))) &&
      (p.ext || ((!x.xlo && decide (x.xbr = 0#2)) && (decide (x.loptr = 0#32) &&
        decide (x.brptr = ⟨0#32, 0#32, 0#32⟩)))))

/-- The fault record: `CAUSE` and `EINFO` are 0 when `ERR = 0` (R23), and `CAUSE` is one of the codes 1 to 7
when `ERR = 1` (R160). -/
def faultWf (s : State) : Bool :=
  if s.err then decide (1#4 ≤ s.cause) && decide (s.cause ≤ 7#4)
  else decide (s.cause = 0#4) && decide (s.einfo = 0#16)

/-- The memory is in canonical form and lies in the address space (R60). -/
def memWf (s : State) : Bool :=
  Memory.wf s.mem && memoryBelow (2 ^ s.params.aw) s.mem

/-- The invariant of the machine: what every step keeps. -/
def stateInv (s : State) : Bool :=
  s.params.wf && ((cfgWf s.params s.cfg && faultWf s) && (memWf s &&
    (match s.inst with
      | none => true
      | some x => instWf s.params x)))

/-! ### Illegal words and the first fault -/

/-- The illegal command words, R87 (a) to (e), over the bits of the word. -/
def illegalWord (p : Params) (w : CmdWord) : Bool :=
  let op := w.toNat / 4096
  let lane := w.toNat / 256 % 16
  let mid := w.toNat / 4 % 64
  let ch := w.toNat % 4
  decide (op = 0 ∨ 0xB ≤ op) ||
  (decide (op = 1 ∨ op = 2 ∨ op = 4 ∨ op = 5) && decide (w.toNat % 4096 ≠ 0)) ||
  (decide (op = 3 ∨ op = 6 ∨ op = 7 ∨ op = 8) && decide (mid ≠ 0)) ||
  (decide (op = 9 ∨ op = 10) && decide (lane ≠ 0)) ||
  (decide (op = 3 ∨ op = 6 ∨ op = 7 ∨ op = 8) && decide (ch = 3)) ||
  (decide (op = 3) && decide (p.nlanes ≤ lane)) ||
  (decide (op = 6 ∨ op = 7 ∨ op = 8) && decide (lane ≠ 0)) ||
  (decide (op = 7 ∨ op = 8) && !p.ext)

/-- The mapped register numbers of a block (R45, R162). -/
def mappedNumber (p : Params) (n : Nat) : Bool :=
  decide (n ≤ 0x04) || (p.ext && (decide (0x05 ≤ n) && decide (n ≤ 0x09))) ||
  (decide (0x10 ≤ n) && decide (n < 0x10 + p.nlanes)) || (decide (0x20 ≤ n) && decide (n ≤ 0x24)) ||
  (decide (0x30 ≤ n) && decide (n ≤ 0x35)) || (p.ext && (decide (0x36 ≤ n) && decide (n ≤ 0x39))) ||
  (decide (0x40 ≤ n) && decide (n < 0x40 + p.nlanes))

/-- `IllegalRegister` (R162): an unmapped number, or `CFGW` to a read-only register (`EINFO`, `FRAME`,
`PARAMS`, `ID` and the instance view: the mapped numbers above that of `STATUS`). -/
def badRegister (p : Params) : Instr → Bool
  | .cfgw reg _ => !mappedNumber p reg.toNat || decide (0x21 ≤ reg.toNat)
  | .cfgr reg => !mappedNumber p reg.toNat
  | .init => false
  | .has _ => false
  | .load _ _ => false
  | .adv => false
  | .step => false
  | .getsc _ => false
  | .loadlo _ => false
  | .loadbr _ => false

/-- The commands that act on the instance (R163): the seven pull commands, and `CFGR` of a register of the
instance view (numbers `0x30` and above, R41). -/
def needsInstance : Instr → Bool
  | .cfgr reg => decide (0x30 ≤ reg.toNat)
  | .cfgw _ _ => false
  | .init => false
  | .has _ => true
  | .load _ _ => true
  | .adv => true
  | .step => true
  | .getsc _ => true
  | .loadlo _ => true
  | .loadbr _ => true

/-- The plane of the command is not enabled (R164). -/
def planeOff (x : Inst) : Instr → Bool
  | .loadlo _ => !x.xlo
  | .loadbr _ => decide (x.xbr = 0#2)
  | .init => false
  | .has _ => false
  | .load _ _ => false
  | .adv => false
  | .step => false
  | .getsc _ => false
  | .cfgw _ _ => false
  | .cfgr _ => false

/-- The commands that need a remaining pixel (R165). -/
def needsPixel : Instr → Bool
  | .load _ _ => true
  | .adv => true
  | .loadlo _ => true
  | .loadbr _ => true
  | .init => false
  | .has _ => false
  | .step => false
  | .getsc _ => false
  | .cfgw _ _ => false
  | .cfgr _ => false

/-- The conditions of R160 in the order of R172. -/
def faultConditions (i : Instr) (s : State) : List (Bool × Cause) :=
  [(!i.wellFormed s.params, .illegalCommand),
    (badRegister s.params i, .illegalRegister),
    (decide (i = .init) && !orderLegal s.cfg.order, .configOrder),
    (decide (i = .init) && (s.params.ext && decide (brmode s.cfg.extctl = 3#2)), .configExt),
    (needsInstance i && s.inst.isNone, .noInstance),
    (s.inst.any fun x => planeOff x i, .planeDisabled),
    (needsPixel i && s.inst.any fun x => decide (x.rem = 0#16), .underrun)]

/-- The fault a command reports: the first condition that holds, in the order of R172. -/
def firstCause (i : Instr) (s : State) : Option Cause :=
  ((faultConditions i s).find? fun bc => bc.1).map fun bc => bc.2

/-- The fault a presented command word reports: a word that decodes to no command is illegal (R161), decided
before everything else; otherwise the first condition of its command. -/
def commandCause (c : Command) (s : State) : Option Cause :=
  match decode c with
  | .ok i => firstCause i s
  | .error _ => some .illegalCommand

/-! ### Extents and ownership -/

/-- The declared extent of a lane (R65) or of the low-byte plane (R66, with `off = 0`): `3 * npix` bytes. -/
def inPixelExtent (p : Params) (base off : Addr) (npix : Nat) (a : Addr) : Prop :=
  ∃ j, j < 3 * npix ∧ a = addrOf p.aw (base.toNat + off.toNat + j)

/-- The declared extent of a brightness plane (R67): `npix` bytes. -/
def inPlaneExtent (p : Params) (base : Addr) (npix : Nat) (a : Addr) : Prop :=
  ∃ j, j < npix ∧ a = addrOf p.aw (base.toNat + j)

/-- Every byte of a lane's or plane's extent that an instance has not passed is held by the memory. -/
def ownsRest (s : State) (x : Inst) : Prop :=
  (∀ l : BitVec 4, l.toNat < s.params.nlanes → ∀ a,
    inPixelExtent s.params x.ptr (laneOffset x.off l) x.rem.toNat a → memoryRead s.mem a.toNat ≠ none) ∧
  (x.xlo = true → ∀ a,
    inPixelExtent s.params x.loptr 0#32 x.rem.toNat a → memoryRead s.mem a.toNat ≠ none) ∧
  (x.xbr = 1#2 → ∀ a,
    inPlaneExtent s.params x.brptr.c0 x.rem.toNat a → memoryRead s.mem a.toNat ≠ none) ∧
  (x.xbr = 2#2 → ∀ ch a,
    inPlaneExtent s.params (x.brptr.get ch) x.rem.toNat a → memoryRead s.mem a.toNat ≠ none)

/-! ### Registers as tables, and stored pixels -/

/-- The bits a configuration register implements (R24 to R30); 0 for the other registers. -/
def implementedBits (p : Params) : Reg → Word
  | .base => BitVec.ofNat 32 (2 ^ p.aw - 1)
  | .npix => 0x0000FFFF#32
  | .scale => 0x00FFFFFF#32
  | .dmode => 0x00000001#32
  | .order => 0x0000003F#32
  | .extctl => 0x00000007#32
  | .lobase => BitVec.ofNat 32 (2 ^ p.aw - 1)
  | .brbase _ => BitVec.ofNat 32 (2 ^ p.aw - 1)
  | .loff _ => BitVec.ofNat 32 (2 ^ p.aw - 1)
  | .status => 0#32
  | .einfo => 0#32
  | .frame => 0#32
  | .params => 0#32
  | .ident => 0#32
  | .vptr => 0#32
  | .vrem => 0#32
  | .vd => 0#32
  | .ve => 0#32
  | .vs => 0#32
  | .vord => 0#32
  | .vloptr => 0#32
  | .vbrptr _ => 0#32
  | .voff _ => 0#32

/-- A register of the configuration group (R24 to R30): its number is below that of `STATUS`. -/
def isConfigReg (r : Reg) : Bool :=
  decide (r.number < 0x20)

/-- The three bytes of a pixel as an order's name lists them, byte 0 first (R91). -/
def pixelBytes (v : Triplet Byte) : OrderName → Triplet Byte
  | .rgb => ⟨v.c0, v.c1, v.c2⟩
  | .rbg => ⟨v.c0, v.c2, v.c1⟩
  | .grb => ⟨v.c1, v.c0, v.c2⟩
  | .gbr => ⟨v.c1, v.c2, v.c0⟩
  | .brg => ⟨v.c2, v.c0, v.c1⟩
  | .bgr => ⟨v.c2, v.c1, v.c0⟩

/-! ### Dither after a number of steps -/

/-- The dither offset after `n` executions of `STEP` (10_state.md R32 (d)): the initial one for even `n`,
`E - ` the initial one for odd `n`. -/
def offsetAfter (n : Nat) (e d : Byte) : Byte :=
  if n % 2 = 0 then d else e - d

end Sys2Proof.Machine
end

