-- ==== Sys2Proof/Certificates/Slice0/Obligations.lean ====
section
/-! DEFINITION. The statements about the block, from the numbered rules of spec/. Every statement about a state
holds for every choice of the implementation parameters the state carries (log 1). -/

open Sys2Proof Sys2Proof.Machine

/-! ### Arithmetic -/

/-- R13: `scale8` is the floor of the scaled product, with its named values for `F = 0` and `F = 1`. -/
def Obligations.Scale8IsFloorOfScaledProduct : Prop :=
  (∀ (f : Bool) (a b : Byte),
    (scale8 f a b).toNat = a.toNat * (b.toNat + f.toNat) / 256 ∧ a.toNat * (b.toNat + f.toNat) < 2 ^ 16) ∧
  (∀ a : Byte, scale8 false a 0#8 = 0#8 ∧ scale8 false 0#8 a = 0#8 ∧
    (1 ≤ a.toNat → (scale8 false a 255#8).toNat = a.toNat - 1)) ∧
  scale8 false 255#8 255#8 = 254#8 ∧
  (∀ a : Byte, scale8 true a 0#8 = 0#8 ∧ scale8 true a 255#8 = a ∧
    (scale8 true 255#8 a).toNat = 255 * (a.toNat + 1) / 256)

/-- R14: `qadd8` saturates at 255. -/
def Obligations.Qadd8SaturatesAt255 : Prop :=
  ∀ a b : Byte, (qadd8 a b).toNat = min 255 (a.toNat + b.toNat)

/-- R15: bit `i` of `bitrev8(x)` is bit `7-i` of `x`, with the rule's six examples. -/
def Obligations.Bitrev8ReversesTheEightBits : Prop :=
  (∀ (x : Byte) (i : Nat), i < 8 → (bitrev8 x).getLsbD i = x.getLsbD (7 - i)) ∧
  bitrev8 0x01#8 = 0x80#8 ∧ bitrev8 0x02#8 = 0x40#8 ∧ bitrev8 0x03#8 = 0xC0#8 ∧
  bitrev8 0x06#8 = 0x60#8 ∧ bitrev8 0x07#8 = 0xE0#8 ∧ bitrev8 0#8 = 0#8

/-! ### Encoding -/

/-- Decoding an encoded instruction gives it back, whatever its operands. -/
def Obligations.DecodeOfEncodeIsTheInstruction : Prop :=
  ∀ i : Instr, decode (encode i) = .ok i

/-- A word that decodes is the word its instruction encodes to, and `HAS` and `CFGW` keep the argument: no bit
of a legal word is dropped. -/
def Obligations.EncodeOfDecodedWordIsTheWord : Prop :=
  ∀ (c : Command) (i : Instr), decode c = .ok i →
    (encode i).cmd = c.cmd ∧
    (match i with
      | .has n => n = c.arg
      | .cfgw _ v => v = c.arg
      | _ => (encode i).arg = 0#32)

/-- R86: a word decodes exactly when it selects a row of the opcode table, and, in format C, `ch` is not 3;
the instruction is of that row. No word selects two rows. -/
def Obligations.DecodeFollowsTheOpcodeTable : Prop :=
  (∀ (c : Command), (∃ i, decode c = .ok i) ↔
    ∃ r ∈ opcodeTable, c.cmd &&& r.mask = r.pattern ∧ (r.format = .c → c.cmd.extractLsb' 0 2 ≠ 3#2)) ∧
  (∀ (c : Command) (i : Instr), decode c = .ok i → i.row ∈ opcodeTable ∧ c.cmd &&& i.row.mask = i.row.pattern) ∧
  (∀ (w : CmdWord), ∀ r ∈ opcodeTable, ∀ q ∈ opcodeTable,
    w &&& r.mask = r.pattern → w &&& q.mask = q.pattern → r = q)

/-- R87: an illegal word raises `IllegalCommand`, with no other effect than fault entry; a word that is not
illegal names a command of the block; the all-zero word is illegal. -/
def Obligations.IllegalWordsRaiseIllegalCommand : Prop :=
  (∀ (s : State) (c : Command) (rest : List Input),
    s.inputs = .command c :: rest → illegalWord s.params c.cmd = true →
    step s = .next { s with
      inputs := rest
      cause := if s.err then s.cause else 1#4
      einfo := if s.err then s.einfo else c.cmd
      err := true
      inst := none
      rsp := some ⟨1#32, true⟩
      lastRead := none }) ∧
  (∀ (p : Params) (c : Command), illegalWord p c.cmd = false ↔
    ∃ i, decode c = .ok i ∧ i.wellFormed p = true) ∧
  (∀ p : Params, illegalWord p 0#16 = true)

/-- Words written out from R81 to R83 and R93 decode to their instructions (a sanity statement). -/
def Obligations.WrittenOutWordsDecode : Prop :=
  decode ⟨0x1000#16, 0#32⟩ = .ok .init ∧
  decode ⟨0x2000#16, 0x10003#32⟩ = .ok (.has 0x10003#32) ∧
  decode ⟨0x3102#16, 0#32⟩ = .ok (.load .blue 1#4) ∧
  decode ⟨0x4000#16, 0#32⟩ = .ok .adv ∧
  decode ⟨0x5000#16, 0#32⟩ = .ok .step ∧
  decode ⟨0x6001#16, 0#32⟩ = .ok (.getsc .green) ∧
  decode ⟨0x7002#16, 0#32⟩ = .ok (.loadlo .blue) ∧
  decode ⟨0x8000#16, 0#32⟩ = .ok (.loadbr .red) ∧
  decode ⟨0x9010#16, 6#32⟩ = .ok (.cfgw 0x10#8 6#32) ∧
  decode ⟨0xA020#16, 0#32⟩ = .ok (.cfgr 0x20#8) ∧
  decode ⟨0x3003#16, 0#32⟩ = .error .reservedChannel ∧
  decode ⟨0x1001#16, 0#32⟩ = .error .mustBeZero ∧
  decode ⟨0xB000#16, 0#32⟩ = .error .reservedOpcode

/-- R91: the legal channel-order codes are the permutations of 0, 1, 2, with the table of names, fields and
codes. -/
def Obligations.LegalOrderCodesArePermutations : Prop :=
  (∀ code : BitVec 6, orderLegal code = true ↔
    (∀ c, (ordField code c).toNat ≤ 2) ∧ (∀ c d, ordField code c = ordField code d → c = d)) ∧
  (∀ n : OrderName, orderLegal n.code = true) ∧
  (OrderName.rgb.code = 0x06#6 ∧ Triplet.tabulate (ordField 0x06#6) = ⟨0#2, 1#2, 2#2⟩) ∧
  (OrderName.rbg.code = 0x09#6 ∧ Triplet.tabulate (ordField 0x09#6) = ⟨0#2, 2#2, 1#2⟩) ∧
  (OrderName.grb.code = 0x12#6 ∧ Triplet.tabulate (ordField 0x12#6) = ⟨1#2, 0#2, 2#2⟩) ∧
  (OrderName.gbr.code = 0x21#6 ∧ Triplet.tabulate (ordField 0x21#6) = ⟨2#2, 0#2, 1#2⟩) ∧
  (OrderName.brg.code = 0x18#6 ∧ Triplet.tabulate (ordField 0x18#6) = ⟨1#2, 2#2, 0#2⟩) ∧
  (OrderName.bgr.code = 0x24#6 ∧ Triplet.tabulate (ordField 0x24#6) = ⟨2#2, 1#2, 0#2⟩)

/-! ### The step, reset and the host -/

/-- When the command presented decodes to an instruction, the step is `exec` of it, with the command taken off
the stream; in particular for every instruction that is well formed for the block's parameters. -/
def Obligations.StepRunsTheDecodedInstruction : Prop :=
  ∀ (s : State) (c : Command) (rest : List Input) (i : Instr),
    s.inputs = .command c :: rest → decode c = .ok i → step s = exec i { s with inputs := rest }

/-- With nothing presented the block is idle and keeps all its state (R19, R185). That the last response stays
on view is the model's choice (log 5), and that such a step exists at all is (log 4). -/
def Obligations.StepWithNothingPresentedKeepsAllState : Prop :=
  ∀ s : State, s.inputs = [] → step s = .next s

/-- R190, R191: `rst` gives every register of the block its reset value and reads and writes no memory. That the
reset stands between commands is the model's reading (log 7). -/
def Obligations.ResetInputResetsTheBlock : Prop :=
  ∀ (s : State) (rest : List Input), s.inputs = .reset :: rest →
    ∃ t, step s = .next t ∧
      t.inst = none ∧ t.frame = 0#8 ∧ t.err = false ∧ t.cause = 0#4 ∧ t.einfo = 0#16 ∧
      t.cfg.base = 0#32 ∧ t.cfg.npix = 0#16 ∧ t.cfg.scale = 0x00FFFFFF#24 ∧ t.cfg.dmode = 0#1 ∧
      t.cfg.order = 0x06#6 ∧ t.cfg.extctl = 0#3 ∧ t.cfg.lobase = 0#32 ∧
      t.cfg.brbase = ⟨0#32, 0#32, 0#32⟩ ∧ (∀ l, laneOffset t.cfg.loff l = 0#32) ∧
      cmdReady t = true ∧ rspValid t = false ∧ rspErr t = false ∧ faultPort t = false ∧ memReq t = false ∧
      t.mem = s.mem ∧ t.params = s.params ∧ t.inputs = rest

/-- R50: the state after reset; the instance registers hold no value, `PARAMS` and `ID` read their constants. -/
def Obligations.ResetStateHoldsTheStatedValues : Prop :=
  State.reset.inst = none ∧ State.reset.frame = 0#8 ∧ State.reset.err = false ∧ State.reset.cause = 0#4 ∧
  State.reset.einfo = 0#16 ∧ State.reset.cfg.base = 0#32 ∧ State.reset.cfg.npix = 0#16 ∧
  State.reset.cfg.scale = 0x00FFFFFF#24 ∧ State.reset.cfg.dmode = 0#1 ∧ State.reset.cfg.order = 0x06#6 ∧
  State.reset.cfg.extctl = 0#3 ∧ State.reset.cfg.lobase = 0#32 ∧
  State.reset.cfg.brbase = ⟨0#32, 0#32, 0#32⟩ ∧ (∀ l, laneOffset State.reset.cfg.loff l = 0#32) ∧
  (∀ r, 0x30 ≤ r.number → readReg State.reset r = none) ∧
  readReg State.reset .params = some (paramsWord State.reset.params) ∧
  readReg State.reset .ident = some 0x464C3542#32

/-- A host store inside the address space changes one byte of memory and nothing of the block; outside it the
machine stops by name. The stream of host stores is the model's (log 9). -/
def Obligations.HostStoreChangesOneByte : Prop :=
  ∀ (s : State) (a : Addr) (b : Byte) (rest : List Input), s.inputs = .store a b :: rest →
    (a.toNat < 2 ^ s.params.aw → ∃ m, step s = .next { s with mem := m, inputs := rest } ∧
      ∀ n, memoryRead m n = if n = a.toNat then some b else memoryRead s.mem n) ∧
    (2 ^ s.params.aw ≤ a.toNat → step s = .fault (.noSuchAddress a.toNat))

/-! ### Invariants of the whole machine -/

/-- The invariant holds after reset, for every choice of the parameters in the ranges of R8. -/
def Obligations.ResetStateSatisfiesTheInvariant : Prop :=
  ∀ p : Params, p.wf = true → stateInv { State.reset with params := p } = true

/-- Every step keeps the invariant: addresses fit `AW`, `ORD` stays one of the six legal codes, `D <= E`,
`XBR` is not 3, `CAUSE` and `EINFO` are 0 while `ERR = 0`, absent options stay absent, and the memory keeps
its canonical form. -/
def Obligations.EveryStepKeepsTheInvariant : Prop :=
  ∀ s t : State, stateInv s = true → step s = .next t → stateInv t = true

/-- R61: no command writes memory; nor does one change the parameters or what the host presents next. -/
def Obligations.CommandsNeverWriteMemory : Prop :=
  ∀ (i : Instr) (s t : State), exec i s = .next t →
    t.mem = s.mem ∧ t.params = s.params ∧ t.inputs = s.inputs

/-- No command is refused, and the only one that can stop the machine is a plane read of an address that holds
no byte (R72): every other command, and every other state, has a next state. -/
def Obligations.CommandsStopOnlyOnUnownedReads : Prop :=
  ∀ (i : Instr) (s : State),
    (∃ t, exec i s = .next t) ∨
    (∃ x a, s.inst = some x ∧ exec i s = .fault (.unownedRead a) ∧ memoryRead s.mem a = none ∧
      ((∃ ch lane, i = .load ch lane ∧ a = (loadAddr s.params x ch lane).toNat) ∨
        (∃ ch, i = .loadlo ch ∧ a = (loadloAddr s.params x ch).toNat) ∨
        (∃ ch, i = .loadbr ch ∧ a = (loadbrAddr x ch).toNat)))

/-- R72: a plane read that passes its checks and falls on an address that holds no byte is stuck, with no value
and no next state, for each of the three commands that read. -/
def Obligations.UnownedReadsAreStuck : Prop :=
  ∀ (s : State) (x : Inst) (ch : Channel), s.inst = some x → x.rem ≠ 0#16 →
    (∀ lane : BitVec 4, lane.toNat < s.params.nlanes →
      memoryRead s.mem (loadAddr s.params x ch lane).toNat = none →
      exec (.load ch lane) s = .fault (.unownedRead (loadAddr s.params x ch lane).toNat)) ∧
    (s.params.ext = true → x.xlo = true → memoryRead s.mem (loadloAddr s.params x ch).toNat = none →
      exec (.loadlo ch) s = .fault (.unownedRead (loadloAddr s.params x ch).toNat)) ∧
    (s.params.ext = true → x.xbr ≠ 0#2 → memoryRead s.mem (loadbrAddr x ch).toNat = none →
      exec (.loadbr ch) s = .fault (.unownedRead (loadbrAddr x ch).toNat))

/-- R196 (a), R65, R72: if the host owns every declared byte the instance has not passed, no command stops the
machine, and every command that leaves the instance alive leaves that premise true. -/
def Obligations.OwnedExtentsNeverStop : Prop :=
  ∀ (i : Instr) (s : State) (x : Inst), stateInv s = true → s.inst = some x → ownsRest s x →
    ∃ t, exec i s = .next t ∧ (i ≠ .init → ∀ y, t.inst = some y → ownsRest t y)

/-! ### Faults -/

/-- R172 with R170: the fault a presented command reports is the first condition of R172's order that holds, and
it takes fault entry, with the command word presented, and nothing else; with none holding, the command does
not fault. -/
def Obligations.FirstFailedCheckDecidesTheFault : Prop :=
  ∀ (s : State) (c : Command) (rest : List Input), s.params.wf = true → s.inputs = .command c :: rest →
    match commandCause c s with
    | some x => step s = .next { s with
        inputs := rest
        cause := if s.err then s.cause else x.code
        einfo := if s.err then s.einfo else c.cmd
        err := true
        inst := none
        rsp := some ⟨x.code.setWidth 32, true⟩
        lastRead := none }
    | none => ∀ t, step s = .next t → rspErr t = false

/-- The codes of the causes (R160). -/
def Obligations.CausesHaveTheirCodes : Prop :=
  Cause.illegalCommand.code = 1#4 ∧ Cause.illegalRegister.code = 2#4 ∧ Cause.noInstance.code = 3#4 ∧
  Cause.underrun.code = 4#4 ∧ Cause.configOrder.code = 5#4 ∧ Cause.configExt.code = 6#4 ∧
  Cause.planeDisabled.code = 7#4 ∧ (∀ x y : Cause, x.code = y.code → x = y)

/-- R23: the fault record. `ERR` is cleared by no command but `CFGW` to `STATUS` with bit 0 set, which clears
it, and by reset; a fault while `ERR = 1` changes neither `CAUSE` nor `EINFO`; the first fault records its code
and its word; both are 0 while `ERR = 0`. -/
def Obligations.FaultRecordIsStickyUntilCleared : Prop :=
  (∀ (s t : State) (c : Command) (rest : List Input), s.params.wf = true → s.inputs = .command c :: rest →
    step s = .next t →
    (s.err = true → t.err = false → c.cmd = 0x9020#16 ∧ c.arg.getLsbD 0 = true) ∧
    (c.cmd = 0x9020#16 → c.arg.getLsbD 0 = true → t.err = false ∧ t.cause = 0#4 ∧ t.einfo = 0#16) ∧
    (s.err = true → t.err = true → t.cause = s.cause ∧ t.einfo = s.einfo) ∧
    (s.err = false → t.err = true →
      t.einfo = c.cmd ∧ t.rsp = some ⟨t.cause.setWidth 32, true⟩ ∧
        (commandCause c s).map Cause.code = some t.cause) ∧
    (s.err = false → t.err = false → s.cause = 0#4 → s.einfo = 0#16 → t.cause = 0#4 ∧ t.einfo = 0#16) ∧
    (rspErr t = true → t.err = true)) ∧
  (∀ (s : State) (rest : List Input), s.inputs = .reset :: rest →
    ∃ t, step s = .next t ∧ t.err = false ∧ t.cause = 0#4 ∧ t.einfo = 0#16)

/-- R20: `PHASE` becomes ACTIVE by an `INIT` that does not fault, IDLE by fault entry and by reset, and no
other command changes it; `STATUS.ACTIVE` shows it. -/
def Obligations.PhaseChangesOnlyByInitFaultAndReset : Prop :=
  (∀ (s t : State) (c : Command) (rest : List Input), s.inputs = .command c :: rest → step s = .next t →
    (rspErr t = true → t.inst = none) ∧
    (rspErr t = false → c.cmd = 0x1000#16 → t.inst.isSome = true) ∧
    (rspErr t = false → c.cmd ≠ 0x1000#16 → t.inst.isSome = s.inst.isSome)) ∧
  (∀ (s : State) (rest : List Input), s.inputs = .reset :: rest → ∃ t, step s = .next t ∧ t.inst = none) ∧
  (∀ s : State, (statusWord s).getLsbD 1 = s.inst.isSome)

/-- R85: every command presented answers, with `rsp_err = 0` and a value of its form, or with `rsp_err = 1` and
the code of its fault. -/
def Obligations.EveryCommandAnswersInItsForm : Prop :=
  ∀ (s t : State) (c : Command) (rest : List Input), s.params.wf = true → s.inputs = .command c :: rest →
    step s = .next t →
    ∃ r, t.rsp = some r ∧
      (r.err = true → ∃ x, commandCause c s = some x ∧ r.word = x.code.setWidth 32) ∧
      (r.err = false → ∃ i, decode c = .ok i ∧
        match i with
        | .init => r.word = 0#32
        | .has _ => r.word = 0#32 ∨ r.word = 1#32
        | .load _ _ => r.word.toNat < 2 ^ 8
        | .adv => r.word = 0#32
        | .step => r.word = 0#32
        | .getsc _ => r.word.toNat < 2 ^ 8
        | .loadlo _ => r.word.toNat < 2 ^ 8
        | .loadbr _ => r.word.toNat < 2 ^ 5
        | .cfgw _ _ => r.word = 0#32
        | .cfgr reg => ∃ g, regOf s.params reg = some g ∧ readReg s g = some r.word)

/-- R70, R170: `LOAD`, `LOADLO` and `LOADBR` that do not fault read exactly one byte, which the memory holds,
and no other command and no faulting command reads any. -/
def Obligations.OnlyPlaneReadsReadMemory : Prop :=
  ∀ (i : Instr) (s t : State), exec i s = .next t →
    (t.lastRead = none ∨ ∃ a, t.lastRead = some a ∧ memoryRead s.mem a.toNat ≠ none) ∧
    (t.lastRead.isSome = true ↔
      rspErr t = false ∧ ((∃ ch lane, i = .load ch lane) ∨ (∃ ch, i = .loadlo ch) ∨ ∃ ch, i = .loadbr ch))

/-! ### INIT -/

/-- R100 with `DMODE = 0`: the instance is latched from the configuration, `D = E = 0`, `R` does not move, and
nothing else of the state changes. R100 gives `XLO`, `XBR`, `LOPTR`, `BRPTR` for `EXT = 1` and `OFF[l]` for
`l < NLANES` only: that the absent plane registers are 0 with `EXT = 0`, and that the offsets of absent lanes are
copied, is the model's choice (log 10). -/
def Obligations.InitConstructsAnUnditheredInstance : Prop :=
  ∀ s : State, orderLegal s.cfg.order = true → (s.params.ext = true → brmode s.cfg.extctl ≠ 3#2) →
    s.cfg.dmode = 0#1 →
    exec .init s = .next { s with
      inst := some
        { ptr := s.cfg.base
          rem := s.cfg.npix
          s := ⟨s.cfg.scale.extractLsb' 0 8, s.cfg.scale.extractLsb' 8 8, s.cfg.scale.extractLsb' 16 8⟩
          d := ⟨0#8, 0#8, 0#8⟩
          e := ⟨0#8, 0#8, 0#8⟩
          ord := s.cfg.order
          off := s.cfg.loff
          xlo := s.params.ext && s.cfg.extctl.getLsbD 0
          xbr := if s.params.ext then s.cfg.extctl.extractLsb' 1 2 else 0#2
          loptr := if s.params.ext then s.cfg.lobase else 0#32
          brptr := if s.params.ext then s.cfg.brbase else ⟨0#32, 0#32, 0#32⟩ }
      rsp := some ⟨0#32, false⟩
      lastRead := none }

/-- R100 with R102 and R103, `DMODE = 1`: `R` advances by one modulo 256 first; the instance's `E` is
`(floor(256/s) + 1) mod 256`, or 0 for `s = 0`; `D` is `scale8(Q, E)` less 1 when not 0, `Q` being the masked
counter reversed over 8 bits. The rest is as in the undithered case; as there, the absent plane registers at 0
with `EXT = 0` and the copied offsets of absent lanes are the model's choice (log 10). -/
def Obligations.InitConstructsADitheredInstance : Prop :=
  ∀ s : State, orderLegal s.cfg.order = true → (s.params.ext = true → brmode s.cfg.extctl ≠ 3#2) →
    s.cfg.dmode = 1#1 →
    ∃ x, exec .init s = .next { s with
        frame := s.frame + 1#8
        inst := some x
        rsp := some ⟨0#32, false⟩
        lastRead := none } ∧
      x.ptr = s.cfg.base ∧ x.rem = s.cfg.npix ∧ x.ord = s.cfg.order ∧ x.off = s.cfg.loff ∧
      x.xlo = (s.params.ext && loen s.cfg.extctl) ∧
      x.xbr = (if s.params.ext then brmode s.cfg.extctl else 0#2) ∧
      x.loptr = (if s.params.ext then s.cfg.lobase else 0#32) ∧
      x.brptr = (if s.params.ext then s.cfg.brbase else ⟨0#32, 0#32, 0#32⟩) ∧
      ∀ c, x.s.get c = scaleField s.cfg.scale c ∧
        (x.e.get c).toNat =
          (if (x.s.get c).toNat = 0 then 0 else (256 / (x.s.get c).toNat + 1) % 256) ∧
        (x.d.get c).toNat =
          (scale8 s.params.scale8Fixed
            (bitrev8 ((s.frame + 1#8) &&& BitVec.ofNat 8 (2 ^ s.params.k - 1))) (x.e.get c)).toNat - 1

/-- R101: the checks of `INIT` in order; a faulting `INIT` writes nothing but what fault entry writes: `R` does
not advance and the configuration stays, and an existing instance is destroyed. -/
def Obligations.InitRefusesIllegalConfiguration : Prop :=
  ∀ s : State,
    (orderLegal s.cfg.order = false →
      exec .init s = .next { s with
        cause := if s.err then s.cause else 5#4
        einfo := if s.err then s.einfo else 0x1000#16
        err := true
        inst := none
        rsp := some ⟨5#32, true⟩
        lastRead := none }) ∧
    (orderLegal s.cfg.order = true → s.params.ext = true → brmode s.cfg.extctl = 3#2 →
      exec .init s = .next { s with
        cause := if s.err then s.cause else 6#4
        einfo := if s.err then s.einfo else 0x1000#16
        err := true
        inst := none
        rsp := some ⟨6#32, true⟩
        lastRead := none })

/-- R102: over the low `K` bits of the counter the phase `Q` takes each multiple of `2^(8-K)` below 256 exactly
once, for every `K` in 0..8. -/
def Obligations.DitherPhaseVisitsEveryMultipleOnce : Prop :=
  ∀ k : Nat, k ≤ 8 →
    (∀ r : Byte, ∃ j, j < 2 ^ k ∧ (ditherPhase k r).toNat = j * 2 ^ (8 - k)) ∧
    (∀ j, j < 2 ^ k → ∃ r : Nat, r < 2 ^ k ∧
      (ditherPhase k (BitVec.ofNat 8 r)).toNat = j * 2 ^ (8 - k) ∧
      ∀ q : Nat, q < 2 ^ k → (ditherPhase k (BitVec.ofNat 8 q)).toNat = j * 2 ^ (8 - k) → q = r)

/-- R22: only the low `K` bits of the frame counter are ever used: two states that differ in the other bits of
`R` construct the same instance. -/
def Obligations.OnlyTheLowBitsOfTheFrameCounterMatter : Prop :=
  ∀ (s : State) (r : Byte), s.params.k ≤ 8 → r.toNat % 2 ^ s.params.k = s.frame.toNat % 2 ^ s.params.k →
    ∀ t u, exec .init s = .next t → exec .init { s with frame := r } = .next u → t.inst = u.inst

/-- R103: the increment is at most 129 for a scale of 2 or more and 1 for a scale of 1, and the initial offset
is at most the increment, for both values of `F` and every phase. -/
def Obligations.InitialOffsetIsAtMostTheIncrement : Prop :=
  (∀ s : Byte, 2 ≤ s.toNat → (ditherIncrement s).toNat = 256 / s.toNat + 1 ∧ (ditherIncrement s).toNat ≤ 129) ∧
  ditherIncrement 1#8 = 1#8 ∧ ditherIncrement 0#8 = 0#8 ∧
  (∀ (f : Bool) (q e : Byte), (ditherOffset f q e).toNat ≤ e.toNat)

/-! ### The pull commands -/

/-- R111: `HAS n` answers 1 exactly when at least `n` pixels remain, compared over 32 bits, and changes
nothing but the response. -/
def Obligations.HasAnswersWhetherPixelsRemain : Prop :=
  ∀ (s : State) (x : Inst) (n : Word), s.inst = some x →
    exec (.has n) s = .next { s with
      rsp := some ⟨if n ≤ x.rem.setWidth 32 then 1#32 else 0#32, false⟩, lastRead := none }

/-- R112: `LOAD c, l` reads the byte at `(PTR + OFF[l] + ord(ORD, c)) mod 2^AW` and answers
`scale8(qadd8(raw, D[c]), S[c])`; nothing but the response changes. -/
def Obligations.LoadAnswersTheDitheredScaledSample : Prop :=
  ∀ (s : State) (x : Inst) (ch : Channel) (lane : BitVec 4) (a : Addr) (raw : Byte),
    s.inst = some x → lane.toNat < s.params.nlanes → x.rem ≠ 0#16 →
    a = addrOf s.params.aw (x.ptr.toNat + (laneOffset x.off lane).toNat + (ordField x.ord ch).toNat) →
    memoryRead s.mem a.toNat = some raw →
    exec (.load ch lane) s = .next { s with
      rsp := some ⟨(scale8 s.params.scale8Fixed (qadd8 raw (x.d.get ch)) (x.s.get ch)).setWidth 32, false⟩
      lastRead := some a }

/-- R113 (a): with the dither offset 0 the sample is the plain fixed-point scaling of the raw byte, and with
`F = 1` and scale 255 it is the raw byte. -/
def Obligations.LoadWithoutDitherIsPlainScaling : Prop :=
  ∀ (s : State) (x : Inst) (ch : Channel) (lane : BitVec 4) (raw : Byte),
    s.inst = some x → lane.toNat < s.params.nlanes → x.rem ≠ 0#16 → x.d.get ch = 0#8 →
    memoryRead s.mem (loadAddr s.params x ch lane).toNat = some raw →
    ∃ t v, exec (.load ch lane) s = .next t ∧ t.rsp = some ⟨v, false⟩ ∧
      v.toNat = raw.toNat * ((x.s.get ch).toNat + s.params.scale8Fixed.toNat) / 256 ∧
      (s.params.scale8Fixed = true → x.s.get ch = 255#8 → v.toNat = raw.toNat)

/-- R113 (b): a pixel stored in any of the six orders, read with the matching code, dither off, `F = 1` and
scale 255, gives every logical channel back. -/
def Obligations.LoadRecoversPermutedChannels : Prop :=
  ∀ (s : State) (x : Inst) (n : OrderName) (v : Triplet Byte) (ch : Channel) (lane : BitVec 4),
    s.inst = some x → lane.toNat < s.params.nlanes → x.rem ≠ 0#16 → x.ord = n.code →
    x.d.get ch = 0#8 → x.s.get ch = 255#8 → s.params.scale8Fixed = true →
    (∀ p : Channel, memoryRead s.mem
      (addrOf s.params.aw (x.ptr.toNat + (laneOffset x.off lane).toNat + p.bits.toNat)).toNat =
        some ((pixelBytes v n).get p)) →
    ∃ t, exec (.load ch lane) s = .next t ∧ t.rsp = some ⟨(v.get ch).setWidth 32, false⟩

/-- R114: `ADV` moves the cursor forward by one pixel and the plane pointers in lock-step, and changes nothing
else of the instance or of the state but the response. -/
def Obligations.AdvMovesTheCursorOnePixel : Prop :=
  ∀ (s : State) (x : Inst), s.inst = some x → x.rem ≠ 0#16 →
    exec .adv s = .next { s with
      inst := some { x with
        ptr := addrOf s.params.aw (x.ptr.toNat + 3)
        rem := BitVec.ofNat 16 (x.rem.toNat - 1)
        loptr := if s.params.ext then addrOf s.params.aw (x.loptr.toNat + 3) else x.loptr
        brptr := if s.params.ext then
            ⟨addrOf s.params.aw (x.brptr.c0.toNat + 1), addrOf s.params.aw (x.brptr.c1.toNat + 1),
              addrOf s.params.aw (x.brptr.c2.toNat + 1)⟩
          else x.brptr }
      rsp := some ⟨0#32, false⟩
      lastRead := none }

/-- R116: `STEP` replaces `D[c]` by `E[c] - D[c]` in all three channels, pixels remaining or not, and changes
nothing else but the response. -/
def Obligations.StepTogglesTheDitherOffsets : Prop :=
  ∀ (s : State) (x : Inst), s.inst = some x →
    exec .step s = .next { s with
      inst := some { x with d := ⟨x.e.c0 - x.d.c0, x.e.c1 - x.d.c1, x.e.c2 - x.d.c2⟩ }
      rsp := some ⟨0#32, false⟩
      lastRead := none } ∧
    (ditherWf x = true → ∀ c, (x.e.get c - x.d.get c).toNat = (x.e.get c).toNat - (x.d.get c).toNat)

/-- R32 (d): the dither offsets after `n` executions of `STEP` are the initial ones for even `n` and `E - ` the
initial ones for odd `n`; nothing else of the instance moves. -/
def Obligations.DitherOffsetsHavePeriodTwo : Prop :=
  ∀ (n : Nat) (s : State) (x : Inst), s.inst = some x →
    ∃ t y, runInstrs (List.replicate n .step) s = .next t ∧ t.inst = some y ∧
      y = { x with d := y.d } ∧ ∀ c, y.d.get c = offsetAfter n (x.e.get c) (x.d.get c)

/-- R118: `GETSC c` answers the latched scale, pixels remaining or not, and changes nothing but the response. -/
def Obligations.GetscAnswersTheLatchedScale : Prop :=
  ∀ (s : State) (x : Inst) (ch : Channel), s.inst = some x →
    exec (.getsc ch) s = .next { s with
      rsp := some ⟨(x.s.get ch).setWidth 32, false⟩, lastRead := none }

/-- R131: `LOADLO c` answers the byte at `(LOPTR + ord(ORD, c)) mod 2^AW` as stored; nothing but the response
changes. -/
def Obligations.LoadloAnswersTheStoredLowByte : Prop :=
  ∀ (s : State) (x : Inst) (ch : Channel) (a : Addr) (b : Byte),
    s.inst = some x → s.params.ext = true → x.xlo = true → x.rem ≠ 0#16 →
    a = addrOf s.params.aw (x.loptr.toNat + (ordField x.ord ch).toNat) →
    memoryRead s.mem a.toNat = some b →
    exec (.loadlo ch) s = .next { s with
      rsp := some ⟨b.setWidth 32, false⟩, lastRead := some a }

/-- R132: `LOADBR c` answers the low five bits of the byte at `BRPTR[0]` in global mode and at `BRPTR[c]` in
per-channel mode; nothing but the response changes. -/
def Obligations.LoadbrAnswersTheStoredBrightness : Prop :=
  ∀ (s : State) (x : Inst) (ch : Channel) (a : Addr) (b : Byte),
    s.inst = some x → s.params.ext = true → (x.xbr = 1#2 ∨ x.xbr = 2#2) → x.rem ≠ 0#16 →
    a = (if x.xbr = 1#2 then x.brptr.c0 else x.brptr.get ch) →
    memoryRead s.mem a.toNat = some b →
    exec (.loadbr ch) s = .next { s with
      rsp := some ⟨BitVec.ofNat 32 (b.toNat % 32), false⟩, lastRead := some a }

/-- R32, R121: after any sequence of commands without `INIT` that leaves an instance, that instance is the
first one moved forward by the number of `ADV`s (never more than pixels remained) and toggled by the number of
`STEP`s; everything else of it is immutable. -/
def Obligations.InstanceAfterARunIsDetermined : Prop :=
  ∀ (is : List Instr) (s t : State) (x y : Inst),
    stateInv s = true → s.inst = some x → (∀ i ∈ is, i ≠ .init) →
    runInstrs is s = .next t → t.inst = some y →
    is.count .adv ≤ x.rem.toNat ∧
    y.rem.toNat = x.rem.toNat - is.count .adv ∧
    y.ptr = addrOf s.params.aw (x.ptr.toNat + 3 * is.count .adv) ∧
    (s.params.ext = true → y.loptr = addrOf s.params.aw (x.loptr.toNat + 3 * is.count .adv) ∧
      ∀ c, y.brptr.get c = addrOf s.params.aw ((x.brptr.get c).toNat + is.count .adv)) ∧
    (∀ c, y.d.get c = offsetAfter (is.count .step) (x.e.get c) (x.d.get c)) ∧
    y.s = x.s ∧ y.e = x.e ∧ y.ord = x.ord ∧ y.off = x.off ∧ y.xlo = x.xlo ∧ y.xbr = x.xbr

/-- R65, R66, R67: whatever commands without `INIT` come between, every byte read lies in the declared extent
of its lane or plane, taken from the instance as it was at the start. -/
def Obligations.ReadsStayInTheDeclaredExtents : Prop :=
  ∀ (is : List Instr) (i : Instr) (s t u : State) (x : Inst) (a : Addr),
    stateInv s = true → s.inst = some x → (∀ j ∈ is, j ≠ .init) →
    runInstrs is s = .next t → exec i t = .next u → u.lastRead = some a →
    (∃ ch lane, i = .load ch lane ∧
      inPixelExtent s.params x.ptr (laneOffset x.off lane) x.rem.toNat a) ∨
    (∃ ch, i = .loadlo ch ∧ inPixelExtent s.params x.loptr 0#32 x.rem.toNat a) ∨
    (∃ ch, i = .loadbr ch ∧
      inPlaneExtent s.params (if x.xbr = 1#2 then x.brptr.c0 else x.brptr.get ch) x.rem.toNat a)

/-- R38, R202: the instance reads only its own copies. Two states with the same parameters, instance and memory
answer every pull command alike and stay alike, whatever their configuration registers, frame counter and
fault record hold. -/
def Obligations.PullCommandsSeeOnlyInstanceAndMemory : Prop :=
  ∀ (i : Instr) (s u t : State), i ≠ .init → (∀ r v, i ≠ .cfgw r v) → (∀ r, i ≠ .cfgr r) →
    u.params = s.params → u.inst = s.inst → u.mem = s.mem → exec i s = .next t →
    ∃ w, exec i u = .next w ∧ w.rsp = t.rsp ∧ w.inst = t.inst ∧ w.lastRead = t.lastRead

/-- R206: the canonical loop over an owned extent pulls every pixel, never faults, and ends with no pixel
remaining and the fault record untouched. R206 leaves the loads and the place of `STEP` to the adapter: that the
loop pulls R, G, B of lane 0, has `STEP` after `ADV` and is bounded in its rounds is the model's choice (log 12). -/
def Obligations.CanonicalLoopPullsEveryPixel : Prop :=
  ∀ (s : State) (x : Inst), stateInv s = true → s.inst = some x → ownsRest s x →
    ∃ t y, canonicalLoop (x.rem.toNat + 1) s = .next t ∧ t.inst = some y ∧ y.rem = 0#16 ∧
      t.rsp = some ⟨0#32, false⟩ ∧ t.err = s.err ∧ t.cause = s.cause ∧ t.einfo = s.einfo ∧
      y.ptr = addrOf s.params.aw (x.ptr.toNat + 3 * x.rem.toNat)

/-! ### The registers -/

/-- R45: the map of register numbers; every number not in it is unmapped, and `CFGR` and `CFGW` to it take
`IllegalRegister`. -/
def Obligations.RegisterMapIsComplete : Prop :=
  ∀ (p : Params), p.wf = true →
    (∀ n : BitVec 8, (regOf p n).isSome = mappedNumber p n.toNat) ∧
    (∀ (s : State) (n : BitVec 8) (v : Word), s.params = p → mappedNumber p n.toNat = false →
      exec (.cfgr n) s = .next (raise .illegalRegister (0xA000#16 ||| n.setWidth 16) s) ∧
      exec (.cfgw n v) s = .next (raise .illegalRegister (0x9000#16 ||| n.setWidth 16) s)) ∧
    (regOf p 0x00#8 = some .base ∧ regOf p 0x01#8 = some .npix ∧ regOf p 0x02#8 = some .scale ∧
      regOf p 0x03#8 = some .dmode ∧ regOf p 0x04#8 = some .order ∧ regOf p 0x20#8 = some .status ∧
      regOf p 0x21#8 = some .einfo ∧ regOf p 0x22#8 = some .frame ∧ regOf p 0x23#8 = some .params ∧
      regOf p 0x24#8 = some .ident ∧ regOf p 0x30#8 = some .vptr ∧ regOf p 0x31#8 = some .vrem ∧
      regOf p 0x32#8 = some .vd ∧ regOf p 0x33#8 = some .ve ∧ regOf p 0x34#8 = some .vs ∧
      regOf p 0x35#8 = some .vord) ∧
    (p.ext = true →
      regOf p 0x05#8 = some .extctl ∧ regOf p 0x06#8 = some .lobase ∧
      regOf p 0x07#8 = some (.brbase .red) ∧ regOf p 0x08#8 = some (.brbase .green) ∧
      regOf p 0x09#8 = some (.brbase .blue) ∧ regOf p 0x36#8 = some .vloptr ∧
      regOf p 0x37#8 = some (.vbrptr .red) ∧ regOf p 0x38#8 = some (.vbrptr .green) ∧
      regOf p 0x39#8 = some (.vbrptr .blue)) ∧
    (∀ l : BitVec 4, l.toNat < p.nlanes →
      regOf p (0x10#8 + l.setWidth 8) = some (.loff l) ∧ regOf p (0x40#8 + l.setWidth 8) = some (.voff l))

/-- R141: `CFGW` to a configuration register stores the bits it implements, leaves every other register and
everything else of the state alone, in either phase; an existing instance is not affected (R38). -/
def Obligations.CfgwStoresTheImplementedBits : Prop :=
  ∀ (s : State) (n : BitVec 8) (r : Reg) (v : Word), s.params.wf = true →
    regOf s.params n = some r → isConfigReg r = true →
    ∃ c, exec (.cfgw n v) s = .next { s with cfg := c, rsp := some ⟨0#32, false⟩, lastRead := none } ∧
      readReg { s with cfg := c } r = some (v &&& implementedBits s.params r) ∧
      ∀ q, q ≠ r → readReg { s with cfg := c } q = readReg s q

/-- R142: `CFGW STATUS` with bit 0 set clears `ERR`, `CAUSE` and `EINFO`, and with bit 0 clear changes nothing;
the other bits are ignored and the phase stays. -/
def Obligations.CfgwOfStatusClearsTheFaultRecord : Prop :=
  ∀ (s : State) (v : Word),
    (v.getLsbD 0 = true → exec (.cfgw 0x20#8 v) s = .next { s with
      err := false, cause := 0#4, einfo := 0#16, rsp := some ⟨0#32, false⟩, lastRead := none }) ∧
    (v.getLsbD 0 = false → exec (.cfgw 0x20#8 v) s = .next { s with
      rsp := some ⟨0#32, false⟩, lastRead := none })

/-- R143: `CFGR` of a mapped register that holds a value answers it and has no other effect; a register of the
instance view raises `NoInstance` in IDLE. -/
def Obligations.CfgrAnswersTheRegister : Prop :=
  ∀ (s : State) (n : BitVec 8) (r : Reg), regOf s.params n = some r →
    (s.inst.isSome = true ∨ r.number < 0x30 → ∃ v, readReg s r = some v ∧
      exec (.cfgr n) s = .next { s with rsp := some ⟨v, false⟩, lastRead := none }) ∧
    (s.inst = none → 0x30 ≤ r.number →
      exec (.cfgr n) s = .next (raise .noInstance (0xA000#16 ||| n.setWidth 16) s))

/-- R24 to R30: what the configuration registers read as. In every state whose configuration holds no reserved
bit (`cfgWf`, a part of the invariant that every step keeps), the bits above `[AW-1:0]` of the address registers
read 0; the other registers' reserved bits read 0 in every state. -/
def Obligations.ConfigurationRegistersReadTheirBits : Prop :=
  ∀ s : State, cfgWf s.params s.cfg = true →
    (∃ v, readReg s .base = some v ∧ v = s.cfg.base ∧ v.toNat < 2 ^ s.params.aw) ∧
    (∃ v, readReg s .npix = some v ∧ v.toNat = s.cfg.npix.toNat) ∧
    (∃ v, readReg s .scale = some v ∧ v.toNat = (scaleField s.cfg.scale .red).toNat +
      256 * (scaleField s.cfg.scale .green).toNat + 65536 * (scaleField s.cfg.scale .blue).toNat) ∧
    (∃ v, readReg s .dmode = some v ∧ v.toNat = s.cfg.dmode.toNat) ∧
    (∃ v, readReg s .order = some v ∧ v.toNat = s.cfg.order.toNat) ∧
    (∃ v, readReg s .extctl = some v ∧ v.getLsbD 0 = loen s.cfg.extctl ∧
      v.extractLsb' 1 2 = brmode s.cfg.extctl ∧ v.toNat < 8) ∧
    (∃ v, readReg s .lobase = some v ∧ v = s.cfg.lobase ∧ v.toNat < 2 ^ s.params.aw) ∧
    (∀ i, ∃ v, readReg s (.brbase i) = some v ∧ v = s.cfg.brbase.get i ∧ v.toNat < 2 ^ s.params.aw) ∧
    (∀ l, ∃ v, readReg s (.loff l) = some v ∧ v = laneOffset s.cfg.loff l ∧ v.toNat < 2 ^ s.params.aw)

/-- R40: the bits of `STATUS`; the port `fault` equals `ERR`. -/
def Obligations.StatusRegisterShowsErrActiveCause : Prop :=
  ∀ s : State, readReg s .status = some (statusWord s) ∧
    (statusWord s).getLsbD 0 = s.err ∧ (statusWord s).getLsbD 1 = s.inst.isSome ∧
    (statusWord s).extractLsb' 2 2 = 0#2 ∧ (statusWord s).extractLsb' 4 4 = s.cause ∧
    (statusWord s).extractLsb' 8 24 = 0#24 ∧ faultPort s = s.err

/-- R41: the instance view. -/
def Obligations.InstanceViewShowsTheInstance : Prop :=
  ∀ (s : State) (x : Inst), s.inst = some x →
    readReg s .vptr = some x.ptr ∧
    readReg s .vrem = some (BitVec.ofNat 32 x.rem.toNat) ∧
    readReg s .vd = some (BitVec.ofNat 32 (x.d.c0.toNat + 256 * x.d.c1.toNat + 65536 * x.d.c2.toNat)) ∧
    readReg s .ve = some (BitVec.ofNat 32 (x.e.c0.toNat + 256 * x.e.c1.toNat + 65536 * x.e.c2.toNat)) ∧
    readReg s .vs = some (BitVec.ofNat 32 (x.s.c0.toNat + 256 * x.s.c1.toNat + 65536 * x.s.c2.toNat)) ∧
    readReg s .vord = some (BitVec.ofNat 32 (x.ord.toNat +
      (if s.params.ext then 64 * x.xlo.toNat + 128 * x.xbr.toNat else 0))) ∧
    readReg s .vloptr = some x.loptr ∧
    (∀ i, readReg s (.vbrptr i) = some (x.brptr.get i)) ∧
    (∀ l, readReg s (.voff l) = some (laneOffset x.off l))

/-- R42, R43, R44: `CFGR` of `EINFO`, `FRAME` and the constants `PARAMS` and `ID`, in either phase; `CFGW` to
any of them faults. -/
def Obligations.IdentificationRegistersReadTheirConstants : Prop :=
  ∀ s : State, s.params.wf = true →
    exec (.cfgr 0x21#8) s = .next { s with rsp := some ⟨s.einfo.setWidth 32, false⟩, lastRead := none } ∧
    exec (.cfgr 0x22#8) s = .next { s with rsp := some ⟨s.frame.setWidth 32, false⟩, lastRead := none } ∧
    exec (.cfgr 0x23#8) s = .next { s with
      rsp := some ⟨BitVec.ofNat 32 (s.params.k + 16 * s.params.nlanes + 512 * s.params.ext.toNat +
        1024 * s.params.scale8Fixed.toNat + 65536 * s.params.aw), false⟩
      lastRead := none } ∧
    exec (.cfgr 0x24#8) s = .next { s with rsp := some ⟨0x464C3542#32, false⟩, lastRead := none } ∧
    ∀ (n : BitVec 8) (v : Word), 0x21 ≤ n.toNat → n.toNat ≤ 0x24 →
      exec (.cfgw n v) s = .next (raise .illegalRegister (0x9000#16 ||| n.setWidth 16) s)

/-! ### The host's side -/

/-- R151: the combined adjustment; the product fits 24 bits, the clamp never acts, a zero correction or
temperature gives zero. R153: the flat brightness bypasses both. -/
def Obligations.AdjustIsTheScaledProduct : Prop :=
  ∀ (b : Byte) (corr temp : Triplet Byte) (c : Channel),
    ((adjust false b corr temp).get c).toNat =
      min 255 (((corr.get c).toNat + 1) * ((temp.get c).toNat + 1) * b.toNat / 65536) ∧
    ((corr.get c).toNat + 1) * ((temp.get c).toNat + 1) * b.toNat < 2 ^ 24 ∧
    ((corr.get c).toNat + 1) * ((temp.get c).toNat + 1) * b.toNat / 65536 ≤ 255 ∧
    (corr.get c = 0#8 ∨ temp.get c = 0#8 → (adjust false b corr temp).get c = 0#8) ∧
    (adjust true b corr temp).get c = b

/-- R152: the adjustment is zero at brightness 0 and does not decrease in the brightness. -/
def Obligations.AdjustIsZeroAtZeroAndMonotone : Prop :=
  ∀ (corr temp : Triplet Byte) (c : Channel),
    (adjust false 0#8 corr temp).get c = 0#8 ∧
    ∀ b d : Byte, b ≤ d → (adjust false b corr temp).get c ≤ (adjust false d corr temp).get c

/-- R154, R195: the set-up of a show call with a legal configuration constructs the instance it describes. R195
allows its steps 2 to 7 in any order: the listed one is the model's choice (log 12). -/
def Obligations.ShowSetupConstructsTheInstance : Prop :=
  ∀ (s : State) (c : ShowCall), s.params.wf = true → orderLegal c.order = true →
    addrFits s.params c.base = true →
    (∀ l ∈ c.lanes, l.1.toNat < s.params.nlanes ∧ addrFits s.params l.2 = true) →
    (c.lanes.map fun l => l.1).Nodup →
    (∀ pl, c.planes = some pl → s.params.ext = true ∧ brmode pl.extctl ≠ 3#2 ∧
      addrFits s.params pl.lobase = true ∧ tripletFits s.params pl.brbase = true) →
    (c.planes = none → s.params.ext = true → brmode s.cfg.extctl ≠ 3#2) →
    ∃ t x, runInstrs (showSetup c) s = .next t ∧ t.inst = some x ∧
      x.ptr = c.base ∧ x.rem = c.npix ∧ x.s = hostScale c.scale ∧ x.ord = c.order ∧
      (c.dither = false → ∀ ch, x.d.get ch = 0#8 ∧ x.e.get ch = 0#8) ∧
      (t.frame = if c.dither then s.frame + 1#8 else s.frame) ∧
      (∀ l ∈ c.lanes, laneOffset x.off l.1 = l.2) ∧
      (∀ pl, c.planes = some pl → x.xlo = loen pl.extctl ∧ x.xbr = brmode pl.extctl ∧
        x.loptr = pl.lobase ∧ x.brptr = pl.brbase) ∧
      t.mem = s.mem ∧ t.err = s.err

/-- R94: the expansions of the pseudo-instructions, as command and argument words. -/
def Obligations.PseudoInstructionsExpandToTheirWords : Prop :=
  (∀ b n : Word, (Pseudo.setbuf b n).expand.map encode = [⟨0x9000#16, b⟩, ⟨0x9001#16, n⟩]) ∧
  (∀ r g b : Byte, (Pseudo.setscale r g b).expand.map encode =
    [⟨0x9002#16, BitVec.ofNat 32 (r.toNat + 256 * g.toNat + 65536 * b.toNat)⟩]) ∧
  (∀ n : OrderName, (Pseudo.setorder n).expand.map encode = [⟨0x9004#16, n.code.setWidth 32⟩]) ∧
  (Pseudo.dither true).expand.map encode = [⟨0x9003#16, 1#32⟩] ∧
  (Pseudo.dither false).expand.map encode = [⟨0x9003#16, 0#32⟩] ∧
  Pseudo.clrerr.expand.map encode = [⟨0x9020#16, 1#32⟩] ∧
  Pseudo.rdstat.expand.map encode = [⟨0xA020#16, 0#32⟩] ∧
  Pseudo.pixel.expand.map encode = [⟨0x3000#16, 0#32⟩, ⟨0x3001#16, 0#32⟩, ⟨0x3002#16, 0#32⟩,
    ⟨0x4000#16, 0#32⟩, ⟨0x5000#16, 0#32⟩]

/-- R104: the claim that the average over a dither period is within one least-significant bit of `raw*s/255`
does not hold of the rules: for `F = 0`, `K = 3`, `s = 239`, `raw = 241`, an even pixel, the eight samples of
the frames 1 to 8 sum to 8 * 224, which is more than one bit below. -/
def Obligations.DitherAverageIsNotWithinOneBit : Prop :=
  ((List.range 8).map fun r =>
    (scale8 false
      (qadd8 241#8 (ditherOffset false (ditherPhase 3 (BitVec.ofNat 8 (r + 1))) (ditherIncrement 239#8)))
      239#8).toNat).sum = 8 * 224 ∧
  255 * (8 * 224) + 255 * 8 < 8 * (241 * 239)
end

