-- ==== Sys2Proof/Laws/Arith.lean ====
section
/-! SUPPORT. The arithmetic of the block over natural numbers: one lemma that says what each function's value
is, and the sums modulo `2^AW`. -/

namespace Sys2Proof.Machine

theorem byte_toNat_lt (a : Byte) : a.toNat < 256 := a.isLt

theorem scale8_product_lt (f : Bool) (a b : Byte) : a.toNat * (b.toNat + f.toNat) < 2 ^ 16 := by
  have ha := byte_toNat_lt a
  have hb := byte_toNat_lt b
  have hf : f.toNat ≤ 1 := Bool.toNat_le f
  have : a.toNat * (b.toNat + f.toNat) ≤ 255 * 256 := Nat.mul_le_mul (by omega) (by omega)
  omega

@[simp] theorem scale8_toNat (f : Bool) (a b : Byte) :
    (scale8 f a b).toNat = a.toNat * (b.toNat + f.toNat) / 256 := by
  have := scale8_product_lt f a b
  simp only [scale8, BitVec.toNat_ofNat]
  omega

@[simp] theorem qadd8_toNat (a b : Byte) : (qadd8 a b).toNat = min 255 (a.toNat + b.toNat) := by
  simp only [qadd8, BitVec.toNat_ofNat]
  omega

@[simp] theorem qadd8_zero (a : Byte) : qadd8 a 0#8 = a := by
  apply BitVec.eq_of_toNat_eq
  have := byte_toNat_lt a
  simp only [qadd8_toNat, BitVec.toNat_ofNat]
  omega

/-- A scaled value is at most the scale: `floor(a * (b + F) / 256) <= b`. -/
theorem scale8_le (f : Bool) (a b : Byte) : (scale8 f a b).toNat ≤ b.toNat := by
  have ha := byte_toNat_lt a
  have hf : f.toNat ≤ 1 := Bool.toNat_le f
  have : a.toNat * (b.toNat + f.toNat) ≤ 255 * (b.toNat + f.toNat) := Nat.mul_le_mul_right _ (by omega)
  rw [scale8_toNat]
  omega

theorem ditherOffset_toNat (f : Bool) (q e : Byte) :
    (ditherOffset f q e).toNat = (scale8 f q e).toNat - 1 := by
  unfold ditherOffset
  split
  · next h => simp [h]
  · next h =>
    have h0 : (scale8 f q e).toNat ≠ 0 := fun h' => h (BitVec.eq_of_toNat_eq (by simpa using h'))
    have hlt := byte_toNat_lt (scale8 f q e)
    rw [BitVec.toNat_sub]
    simp only [BitVec.toNat_ofNat]
    omega

theorem ditherIncrement_toNat (s : Byte) :
    (ditherIncrement s).toNat = if s.toNat = 0 then 0 else (256 / s.toNat + 1) % 256 := by
  unfold ditherIncrement
  by_cases h : s = 0#8
  · simp [h]
  · have h0 : s.toNat ≠ 0 := fun h' => h (BitVec.eq_of_toNat_eq (by simpa using h'))
    simp [h, h0]

theorem addrOf_toNat (aw n : Nat) : (addrOf aw n).toNat = n % 2 ^ aw % 2 ^ 32 := by
  simp [addrOf]

theorem addrOf_lt (aw n : Nat) : (addrOf aw n).toNat < 2 ^ aw := by
  rw [addrOf_toNat]
  exact Nat.lt_of_le_of_lt (Nat.mod_le _ _) (Nat.mod_lt _ (Nat.two_pow_pos aw))

/-- An address that fits is its own sum. -/
theorem addrOf_self (aw : Nat) (a : Addr) (h : a.toNat < 2 ^ aw) : addrOf aw a.toNat = a := by
  apply BitVec.eq_of_toNat_eq
  rw [addrOf_toNat, Nat.mod_eq_of_lt h, Nat.mod_eq_of_lt a.isLt]

/-- Equal sums modulo `2^AW` are equal addresses. -/
theorem addrOf_congr {aw m n : Nat} (h : m % 2 ^ aw = n % 2 ^ aw) : addrOf aw m = addrOf aw n := by
  simp [addrOf, h]

/-- An address sum inside an address sum: the wraps collapse. -/
@[simp] theorem addrOf_addrOf_add (aw m n : Nat) :
    addrOf aw ((addrOf aw m).toNat + n) = addrOf aw (m + n) := by
  apply BitVec.eq_of_toNat_eq
  simp only [addrOf_toNat]
  rcases Nat.le_total aw 32 with h | h
  · have hle : 2 ^ aw ≤ 2 ^ 32 := Nat.pow_le_pow_right (by decide) h
    have hlt := Nat.mod_lt m (Nat.two_pow_pos aw)
    rw [Nat.mod_eq_of_lt (Nat.lt_of_lt_of_le hlt hle), Nat.mod_add_mod]
  · have hd : 2 ^ 32 ∣ 2 ^ aw := Nat.pow_dvd_pow 2 h
    simp only [Nat.mod_mod_of_dvd _ hd, Nat.mod_add_mod]

end Sys2Proof.Machine
end

