-- ==== Sys2Proof/Laws/Memory.lean ====
section
/-! SUPPORT. The laws of the pixel memory: read after write, and that every memory operation keeps the
canonical form and the address space. -/

namespace Sys2Proof.Machine

/-- A read of the byte just written gives it; every other address reads as before. -/
theorem memoryRead_memoryWrite (m : Memory) (n k : Nat) (v : Byte) :
    memoryRead (memoryWrite m n v) k = if k = n then some v else memoryRead m k := by
  induction m with
  | nil =>
    by_cases h : n = k <;> simp [memoryRead, memoryWrite, h, eq_comm]
  | cons c rest ih =>
    obtain ⟨a, b⟩ := c
    simp only [memoryWrite]
    split
    · by_cases h : n = k
      · simp [memoryRead, h]
      · simp [memoryRead, h, Ne.symm h]
    · split
      · next h =>
        subst h
        by_cases hk : n = k
        · simp [memoryRead, hk]
        · simp [memoryRead, hk, Ne.symm hk]
      · next h =>
        by_cases hk : a = k
        · subst hk
          simp [memoryRead, Ne.symm h]
        · simp [memoryRead, hk, ih]

theorem memoryAbove_trans {n k : Nat} (m : Memory) (h : n ≤ k) (hm : memoryAbove k m = true) :
    memoryAbove n m = true := by
  induction m with
  | nil => rfl
  | cons c rest ih =>
    obtain ⟨a, b⟩ := c
    simp only [memoryAbove, Bool.and_eq_true, decide_eq_true_eq] at hm ⊢
    exact ⟨by omega, ih hm.2⟩

theorem memoryAbove_memoryWrite {n k : Nat} (m : Memory) (v : Byte) (h : n < k)
    (hm : memoryAbove n m = true) : memoryAbove n (memoryWrite m k v) = true := by
  induction m with
  | nil => simp [memoryWrite, memoryAbove, h]
  | cons c rest ih =>
    obtain ⟨a, b⟩ := c
    simp only [memoryAbove, Bool.and_eq_true, decide_eq_true_eq] at hm
    simp only [memoryWrite]
    split
    · simp [memoryAbove, h, hm.1, hm.2]
    · split
      · simp [memoryAbove, h, hm.2]
      · simp [memoryAbove, hm.1, ih hm.2]

/-- A write keeps the canonical form. -/
theorem memoryWf_memoryWrite (m : Memory) (n : Nat) (v : Byte) (h : Memory.wf m = true) :
    Memory.wf (memoryWrite m n v) = true := by
  induction m with
  | nil => rfl
  | cons c rest ih =>
    obtain ⟨a, b⟩ := c
    simp only [Memory.wf, Bool.and_eq_true] at h
    simp only [memoryWrite]
    split
    · next hn =>
      simp [Memory.wf, memoryAbove, hn, h.1, h.2, memoryAbove_trans rest (Nat.le_of_lt hn) h.1]
    · split
      · next hn => subst hn; simp [Memory.wf, h.1, h.2]
      · next hn hne =>
        have : a < n := by omega
        simp [Memory.wf, ih h.2, memoryAbove_memoryWrite rest v this h.1]

/-- A write inside the address space keeps the memory inside it. -/
theorem memoryBelow_memoryWrite (m : Memory) (n k : Nat) (v : Byte) (hk : k < n)
    (h : memoryBelow n m = true) : memoryBelow n (memoryWrite m k v) = true := by
  induction m with
  | nil => simp [memoryWrite, memoryBelow, hk]
  | cons c rest ih =>
    obtain ⟨a, b⟩ := c
    simp only [memoryBelow, Bool.and_eq_true, decide_eq_true_eq] at h
    simp only [memoryWrite]
    split
    · simp [memoryBelow, hk, h.1, h.2]
    · split
      · simp [memoryBelow, hk, h.2]
      · simp [memoryBelow, h.1, ih h.2]

/-- The memory after reset is in canonical form. -/
theorem memoryWf_reset : Memory.wf State.reset.mem = true := rfl

end Sys2Proof.Machine
end

