-- ==== Sys2Proof/Laws/State.lean ====
section
/-! SUPPORT. What each shared update of the state does to each field, true by rfl, so that no proof unfolds a
record update: `respond`, `raise`, `clearErr`, `resetBlock`, and the accessors of a triplet. -/

namespace Sys2Proof.Machine

@[simp] theorem respond_params (v : Word) (s : State) : (respond v s).params = s.params := rfl
@[simp] theorem respond_cfg (v : Word) (s : State) : (respond v s).cfg = s.cfg := rfl
@[simp] theorem respond_inst (v : Word) (s : State) : (respond v s).inst = s.inst := rfl
@[simp] theorem respond_frame (v : Word) (s : State) : (respond v s).frame = s.frame := rfl
@[simp] theorem respond_err (v : Word) (s : State) : (respond v s).err = s.err := rfl
@[simp] theorem respond_cause (v : Word) (s : State) : (respond v s).cause = s.cause := rfl
@[simp] theorem respond_einfo (v : Word) (s : State) : (respond v s).einfo = s.einfo := rfl
@[simp] theorem respond_rsp (v : Word) (s : State) : (respond v s).rsp = some ⟨v, false⟩ := rfl
@[simp] theorem respond_lastRead (v : Word) (s : State) : (respond v s).lastRead = none := rfl
@[simp] theorem respond_mem (v : Word) (s : State) : (respond v s).mem = s.mem := rfl
@[simp] theorem respond_inputs (v : Word) (s : State) : (respond v s).inputs = s.inputs := rfl

@[simp] theorem raise_params (x : Cause) (w : CmdWord) (s : State) : (raise x w s).params = s.params := rfl
@[simp] theorem raise_cfg (x : Cause) (w : CmdWord) (s : State) : (raise x w s).cfg = s.cfg := rfl
@[simp] theorem raise_inst (x : Cause) (w : CmdWord) (s : State) : (raise x w s).inst = none := rfl
@[simp] theorem raise_frame (x : Cause) (w : CmdWord) (s : State) : (raise x w s).frame = s.frame := rfl
@[simp] theorem raise_err (x : Cause) (w : CmdWord) (s : State) : (raise x w s).err = true := rfl
@[simp] theorem raise_cause (x : Cause) (w : CmdWord) (s : State) : (raise x w s).cause = if s.err then s.cause else x.code := rfl
@[simp] theorem raise_einfo (x : Cause) (w : CmdWord) (s : State) : (raise x w s).einfo = if s.err then s.einfo else w := rfl
@[simp] theorem raise_rsp (x : Cause) (w : CmdWord) (s : State) : (raise x w s).rsp = some ⟨x.code.setWidth 32, true⟩ := rfl
@[simp] theorem raise_lastRead (x : Cause) (w : CmdWord) (s : State) : (raise x w s).lastRead = none := rfl
@[simp] theorem raise_mem (x : Cause) (w : CmdWord) (s : State) : (raise x w s).mem = s.mem := rfl
@[simp] theorem raise_inputs (x : Cause) (w : CmdWord) (s : State) : (raise x w s).inputs = s.inputs := rfl

@[simp] theorem clearErr_params (s : State) : (clearErr s).params = s.params := rfl
@[simp] theorem clearErr_cfg (s : State) : (clearErr s).cfg = s.cfg := rfl
@[simp] theorem clearErr_inst (s : State) : (clearErr s).inst = s.inst := rfl
@[simp] theorem clearErr_frame (s : State) : (clearErr s).frame = s.frame := rfl
@[simp] theorem clearErr_err (s : State) : (clearErr s).err = false := rfl
@[simp] theorem clearErr_cause (s : State) : (clearErr s).cause = 0#4 := rfl
@[simp] theorem clearErr_einfo (s : State) : (clearErr s).einfo = 0#16 := rfl
@[simp] theorem clearErr_rsp (s : State) : (clearErr s).rsp = s.rsp := rfl
@[simp] theorem clearErr_lastRead (s : State) : (clearErr s).lastRead = s.lastRead := rfl
@[simp] theorem clearErr_mem (s : State) : (clearErr s).mem = s.mem := rfl
@[simp] theorem clearErr_inputs (s : State) : (clearErr s).inputs = s.inputs := rfl

@[simp] theorem resetBlock_params (s : State) : (resetBlock s).params = s.params := rfl
@[simp] theorem resetBlock_cfg (s : State) : (resetBlock s).cfg = ConfigRegs.reset := rfl
@[simp] theorem resetBlock_inst (s : State) : (resetBlock s).inst = none := rfl
@[simp] theorem resetBlock_frame (s : State) : (resetBlock s).frame = 0#8 := rfl
@[simp] theorem resetBlock_err (s : State) : (resetBlock s).err = false := rfl
@[simp] theorem resetBlock_cause (s : State) : (resetBlock s).cause = 0#4 := rfl
@[simp] theorem resetBlock_einfo (s : State) : (resetBlock s).einfo = 0#16 := rfl
@[simp] theorem resetBlock_rsp (s : State) : (resetBlock s).rsp = none := rfl
@[simp] theorem resetBlock_lastRead (s : State) : (resetBlock s).lastRead = none := rfl
@[simp] theorem resetBlock_mem (s : State) : (resetBlock s).mem = s.mem := rfl
@[simp] theorem resetBlock_inputs (s : State) : (resetBlock s).inputs = s.inputs := rfl

@[simp] theorem Triplet.get_red {α : Type} (t : Triplet α) : t.get .red = t.c0 := rfl
@[simp] theorem Triplet.get_green {α : Type} (t : Triplet α) : t.get .green = t.c1 := rfl
@[simp] theorem Triplet.get_blue {α : Type} (t : Triplet α) : t.get .blue = t.c2 := rfl
@[simp] theorem Triplet.tabulate_c0 {α : Type} (f : Channel → α) : (Triplet.tabulate f).c0 = f .red := rfl
@[simp] theorem Triplet.tabulate_c1 {α : Type} (f : Channel → α) : (Triplet.tabulate f).c1 = f .green := rfl
@[simp] theorem Triplet.tabulate_c2 {α : Type} (f : Channel → α) : (Triplet.tabulate f).c2 = f .blue := rfl

@[simp] theorem Triplet.get_tabulate {α : Type} (f : Channel → α) (c : Channel) :
    (Triplet.tabulate f).get c = f c := by
  cases c <;> rfl

/-- Two triplets that agree in every channel are equal. -/
theorem Triplet.ext_get {α : Type} {t u : Triplet α} (h : ∀ c, t.get c = u.get c) : t = u := by
  obtain ⟨t0, t1, t2⟩ := t
  obtain ⟨u0, u1, u2⟩ := u
  have h0 : t0 = u0 := h .red
  have h1 : t1 = u1 := h .green
  have h2 : t2 = u2 := h .blue
  rw [h0, h1, h2]

end Sys2Proof.Machine
end

