-- ==== Sys2Proof/Laws/Ops.lean ====
section
/-! SUPPORT. One lemma for each shared operation and each meaning that says once everything it can do: if it
answers next, then one of these cases holds; later proofs cite these and unfold nothing. -/

namespace Sys2Proof.Machine

/-- A trap answers exactly fault entry. -/
@[simp] theorem trap_eq_next {i : Instr} {x : Cause} {s t : State} :
    trap i x s = .next t ↔ t = raise x (encode i).cmd s := by
  simp [trap, eq_comm]

/-- `onInst` with an instance: the command is legal and the body decides, or it is illegal. -/
theorem onInst_some {i : Instr} {s : State} {x : Inst} {body : Inst → Result} (h : s.inst = some x) :
    onInst i s body = if i.wellFormed s.params then body x else trap i .illegalCommand s := by
  simp [onInst, h]

/-- `onInst` without an instance always traps. -/
theorem onInst_none {i : Instr} {s : State} {body : Inst → Result} (h : s.inst = none) :
    onInst i s body =
      trap i (if i.wellFormed s.params then .noInstance else .illegalCommand) s := by
  simp only [onInst, h]
  split <;> simp_all

/-- Everything `onInst` can answer as a next state. -/
theorem onInst_next {i : Instr} {s t : State} {body : Inst → Result} (h : onInst i s body = .next t) :
    (i.wellFormed s.params = false ∧ t = raise .illegalCommand (encode i).cmd s) ∨
    (i.wellFormed s.params = true ∧ s.inst = none ∧ t = raise .noInstance (encode i).cmd s) ∨
    (∃ x, i.wellFormed s.params = true ∧ s.inst = some x ∧ body x = .next t) := by
  unfold onInst at h
  split at h
  · next hw =>
    split at h
    · next x hx => exact .inr (.inr ⟨x, hw, hx, h⟩)
    · next hx => exact .inr (.inl ⟨hw, hx, trap_eq_next.1 h⟩)
  · next hw => exact .inl ⟨by simpa using hw, trap_eq_next.1 h⟩

/-- Everything `onPixel` can answer as a next state. -/
theorem onPixel_next {i : Instr} {s t : State} {x : Inst} {body : Result}
    (h : onPixel i s x body = .next t) :
    (x.rem = 0#16 ∧ t = raise .underrun (encode i).cmd s) ∨ (x.rem ≠ 0#16 ∧ body = .next t) := by
  unfold onPixel at h
  split at h
  · next hr => exact .inl ⟨hr, trap_eq_next.1 h⟩
  · next hr => exact .inr ⟨hr, h⟩

/-- Everything `readByte` can answer as a next state: the byte is held and nothing but the response moves. -/
theorem readByte_next {s t : State} {a : Addr} {answer : Byte → Word} (h : readByte s a answer = .next t) :
    ∃ b, memoryRead s.mem a.toNat = some b ∧
      t = { s with rsp := some ⟨answer b, false⟩, lastRead := some a } := by
  unfold readByte at h
  split at h
  · next b hb =>
    refine ⟨b, hb, ?_⟩
    cases h
    rfl
  · cases h

/-- `readByte` of a held byte. -/
theorem readByte_some {s : State} {a : Addr} {b : Byte} {answer : Byte → Word}
    (h : memoryRead s.mem a.toNat = some b) :
    readByte s a answer = .next { s with rsp := some ⟨answer b, false⟩, lastRead := some a } := by
  simp only [readByte, h]
  rfl

/-- Everything `INIT` can do: fault entry with the cause of its first failed check, or a new instance
and the frame counter. -/
theorem execInit_next {s t : State} (h : execInit s = .next t) :
    (∃ x, initCheck s = some x ∧ t = raise x (encode .init).cmd s) ∨
    (initCheck s = none ∧
      t = { s with
        frame := initFrame s, inst := some (initInst s), rsp := some ⟨0#32, false⟩, lastRead := none }) := by
  unfold execInit at h
  split at h
  · next x hx => exact .inl ⟨x, hx, trap_eq_next.1 h⟩
  · next hx =>
    cases h
    exact .inr ⟨hx, rfl⟩

/-- Everything `HAS` can do. -/
theorem execHas_next {n : Word} {s t : State} (h : execHas n s = .next t) :
    (s.inst = none ∧ t = raise .noInstance (encode (.has n)).cmd s) ∨
    (∃ x, s.inst = some x ∧ t = respond (if n.toNat ≤ x.rem.toNat then 1#32 else 0#32) s) := by
  rcases onInst_next h with ⟨hw, _⟩ | ⟨_, hi, ht⟩ | ⟨x, _, hi, hb⟩
  · cases hw
  · exact .inl ⟨hi, ht⟩
  · cases hb
    exact .inr ⟨x, hi, rfl⟩

/-- Everything `LOAD` can do as a next state. -/
theorem execLoad_next {ch : Channel} {lane : BitVec 4} {s t : State} (h : execLoad ch lane s = .next t) :
    (s.params.nlanes ≤ lane.toNat ∧ t = raise .illegalCommand (encode (.load ch lane)).cmd s) ∨
    (lane.toNat < s.params.nlanes ∧ s.inst = none ∧ t = raise .noInstance (encode (.load ch lane)).cmd s) ∨
    (∃ x, lane.toNat < s.params.nlanes ∧ s.inst = some x ∧ x.rem = 0#16 ∧
      t = raise .underrun (encode (.load ch lane)).cmd s) ∨
    (∃ x b, lane.toNat < s.params.nlanes ∧ s.inst = some x ∧ x.rem ≠ 0#16 ∧
      memoryRead s.mem (loadAddr s.params x ch lane).toNat = some b ∧
      t = { s with
        rsp := some ⟨(sampleOf s.params x ch b).setWidth 32, false⟩
        lastRead := some (loadAddr s.params x ch lane) }) := by
  rcases onInst_next h with ⟨hw, ht⟩ | ⟨hw, hi, ht⟩ | ⟨x, hw, hi, hb⟩
  · exact .inl ⟨by simpa [Instr.wellFormed] using hw, ht⟩
  · exact .inr (.inl ⟨by simpa [Instr.wellFormed] using hw, hi, ht⟩)
  · have hl : lane.toNat < s.params.nlanes := by simpa [Instr.wellFormed] using hw
    rcases onPixel_next hb with ⟨hr, ht⟩ | ⟨hr, hb⟩
    · exact .inr (.inr (.inl ⟨x, hl, hi, hr, ht⟩))
    · obtain ⟨b, hm, ht⟩ := readByte_next hb
      exact .inr (.inr (.inr ⟨x, b, hl, hi, hr, hm, ht⟩))

/-- Everything `ADV` can do. -/
theorem execAdv_next {s t : State} (h : execAdv s = .next t) :
    (s.inst = none ∧ t = raise .noInstance (encode .adv).cmd s) ∨
    (∃ x, s.inst = some x ∧ x.rem = 0#16 ∧ t = raise .underrun (encode .adv).cmd s) ∨
    (∃ x, s.inst = some x ∧ x.rem ≠ 0#16 ∧
      t = { s with inst := some (advInst s.params x), rsp := some ⟨0#32, false⟩, lastRead := none }) := by
  rcases onInst_next h with ⟨hw, _⟩ | ⟨_, hi, ht⟩ | ⟨x, _, hi, hb⟩
  · cases hw
  · exact .inl ⟨hi, ht⟩
  · rcases onPixel_next hb with ⟨hr, ht⟩ | ⟨hr, hb⟩
    · exact .inr (.inl ⟨x, hi, hr, ht⟩)
    · cases hb
      exact .inr (.inr ⟨x, hi, hr, rfl⟩)

/-- Everything `STEP` can do. -/
theorem execStep_next {s t : State} (h : execStep s = .next t) :
    (s.inst = none ∧ t = raise .noInstance (encode .step).cmd s) ∨
    (∃ x, s.inst = some x ∧
      t = { s with inst := some (stepInst x), rsp := some ⟨0#32, false⟩, lastRead := none }) := by
  rcases onInst_next h with ⟨hw, _⟩ | ⟨_, hi, ht⟩ | ⟨x, _, hi, hb⟩
  · cases hw
  · exact .inl ⟨hi, ht⟩
  · cases hb
    exact .inr ⟨x, hi, rfl⟩

/-- Everything `GETSC` can do. -/
theorem execGetsc_next {ch : Channel} {s t : State} (h : execGetsc ch s = .next t) :
    (s.inst = none ∧ t = raise .noInstance (encode (.getsc ch)).cmd s) ∨
    (∃ x, s.inst = some x ∧ t = respond ((x.s.get ch).setWidth 32) s) := by
  rcases onInst_next h with ⟨hw, _⟩ | ⟨_, hi, ht⟩ | ⟨x, _, hi, hb⟩
  · cases hw
  · exact .inl ⟨hi, ht⟩
  · cases hb
    exact .inr ⟨x, hi, rfl⟩

/-- Everything `LOADLO` can do as a next state. -/
theorem execLoadlo_next {ch : Channel} {s t : State} (h : execLoadlo ch s = .next t) :
    (∃ c, t = raise c (encode (.loadlo ch)).cmd s ∧
      ((c = .illegalCommand ∧ s.params.ext = false) ∨
        (s.params.ext = true ∧ ((c = .noInstance ∧ s.inst = none) ∨
          ∃ x, s.inst = some x ∧ ((c = .planeDisabled ∧ x.xlo = false) ∨
            (c = .underrun ∧ x.xlo = true ∧ x.rem = 0#16)))))) ∨
    (∃ x b, s.params.ext = true ∧ s.inst = some x ∧ x.xlo = true ∧ x.rem ≠ 0#16 ∧
      memoryRead s.mem (loadloAddr s.params x ch).toNat = some b ∧
      t = { s with rsp := some ⟨b.setWidth 32, false⟩, lastRead := some (loadloAddr s.params x ch) }) := by
  rcases onInst_next h with ⟨hw, ht⟩ | ⟨hw, hi, ht⟩ | ⟨x, hw, hi, hb⟩
  · exact .inl ⟨_, ht, .inl ⟨rfl, hw⟩⟩
  · exact .inl ⟨_, ht, .inr ⟨hw, .inl ⟨rfl, hi⟩⟩⟩
  · split at hb
    · next hx =>
      rcases onPixel_next hb with ⟨hr, ht⟩ | ⟨hr, hb⟩
      · exact .inl ⟨_, ht, .inr ⟨hw, .inr ⟨x, hi, .inr ⟨rfl, hx, hr⟩⟩⟩⟩
      · obtain ⟨b, hm, ht⟩ := readByte_next hb
        exact .inr ⟨x, b, hw, hi, hx, hr, hm, ht⟩
    · next hx =>
      exact .inl ⟨_, trap_eq_next.1 hb, .inr ⟨hw, .inr ⟨x, hi, .inl ⟨rfl, by simpa using hx⟩⟩⟩⟩

/-- Everything `LOADBR` can do as a next state. -/
theorem execLoadbr_next {ch : Channel} {s t : State} (h : execLoadbr ch s = .next t) :
    (∃ c, t = raise c (encode (.loadbr ch)).cmd s ∧
      ((c = .illegalCommand ∧ s.params.ext = false) ∨
        (s.params.ext = true ∧ ((c = .noInstance ∧ s.inst = none) ∨
          ∃ x, s.inst = some x ∧ ((c = .planeDisabled ∧ x.xbr = 0#2) ∨
            (c = .underrun ∧ x.xbr ≠ 0#2 ∧ x.rem = 0#16)))))) ∨
    (∃ x b, s.params.ext = true ∧ s.inst = some x ∧ x.xbr ≠ 0#2 ∧ x.rem ≠ 0#16 ∧
      memoryRead s.mem (loadbrAddr x ch).toNat = some b ∧
      t = { s with
        rsp := some ⟨(b.extractLsb' 0 5).setWidth 32, false⟩, lastRead := some (loadbrAddr x ch) }) := by
  rcases onInst_next h with ⟨hw, ht⟩ | ⟨hw, hi, ht⟩ | ⟨x, hw, hi, hb⟩
  · exact .inl ⟨_, ht, .inl ⟨rfl, hw⟩⟩
  · exact .inl ⟨_, ht, .inr ⟨hw, .inl ⟨rfl, hi⟩⟩⟩
  · split at hb
    · next hx => exact .inl ⟨_, trap_eq_next.1 hb, .inr ⟨hw, .inr ⟨x, hi, .inl ⟨rfl, hx⟩⟩⟩⟩
    · next hx =>
      rcases onPixel_next hb with ⟨hr, ht⟩ | ⟨hr, hb⟩
      · exact .inl ⟨_, ht, .inr ⟨hw, .inr ⟨x, hi, .inr ⟨rfl, hx, hr⟩⟩⟩⟩
      · obtain ⟨b, hm, ht⟩ := readByte_next hb
        exact .inr ⟨x, b, hw, hi, hx, hr, hm, ht⟩

/-- What a register write does: `STATUS` clears the fault record or nothing; a configuration register changes
the configuration only. -/
theorem writeReg_some {s t : State} {r : Reg} {v : Word} (h : writeReg s r v = some t) :
    (r = .status ∧ t = if v.getLsbD 0 then clearErr s else s) ∨
    (r ≠ .status ∧ ∃ c, writeCfg s.params s.cfg v r = some c ∧ t = { s with cfg := c }) := by
  unfold writeReg at h
  split at h
  · next hr =>
    cases h
    exact .inl ⟨hr, rfl⟩
  · next hr =>
    cases hc : writeCfg s.params s.cfg v r with
    | none => simp [hc] at h
    | some c =>
      simp only [hc, Option.map_some, Option.some.injEq] at h
      exact .inr ⟨hr, c, rfl, h.symm⟩

/-- Everything `CFGW` can do. -/
theorem execCfgw_next {reg : BitVec 8} {v : Word} {s t : State} (h : execCfgw reg v s = .next t) :
    (t = raise .illegalRegister (encode (.cfgw reg v)).cmd s ∧
      (regOf s.params reg = none ∨ ∃ r, regOf s.params reg = some r ∧ writeReg s r v = none)) ∨
    (∃ r u, regOf s.params reg = some r ∧ writeReg s r v = some u ∧ t = respond 0#32 u) := by
  unfold execCfgw at h
  split at h
  · next hr => exact .inl ⟨trap_eq_next.1 h, .inl hr⟩
  · next r hr =>
    split at h
    · next hw => exact .inl ⟨trap_eq_next.1 h, .inr ⟨r, hr, hw⟩⟩
    · next u hw =>
      cases h
      exact .inr ⟨r, u, hr, hw, rfl⟩

/-- Everything `CFGR` can do. -/
theorem execCfgr_next {reg : BitVec 8} {s t : State} (h : execCfgr reg s = .next t) :
    (regOf s.params reg = none ∧ t = raise .illegalRegister (encode (.cfgr reg)).cmd s) ∨
    (∃ r, regOf s.params reg = some r ∧ readReg s r = none ∧
      t = raise .noInstance (encode (.cfgr reg)).cmd s) ∨
    (∃ r v, regOf s.params reg = some r ∧ readReg s r = some v ∧ t = respond v s) := by
  unfold execCfgr at h
  split at h
  · next hr => exact .inl ⟨hr, trap_eq_next.1 h⟩
  · next r hr =>
    split at h
    · next hv => exact .inr (.inl ⟨r, hr, hv, trap_eq_next.1 h⟩)
    · next v hv =>
      cases h
      exact .inr (.inr ⟨r, v, hr, hv, rfl⟩)

end Sys2Proof.Machine
end

