-- ==== Sys2Proof/Laws/PerInstr.lean ====
section
/-! SUPPORT. Statements made per instruction: the word of every instruction lies in its row of the opcode table
(30_encoding.md R86). -/

namespace Sys2Proof

/-- The row's mask over the instruction's word gives the row's pattern, and the row is in the table. -/
def Laws.TableRow.Statement (i : Instr) : Prop :=
  (encode i).cmd &&& i.row.mask = i.row.pattern ∧ i.row ∈ opcodeTable

theorem Laws.TableRow.init : Laws.TableRow.Statement .init := by
  constructor <;> decide

theorem Laws.TableRow.has (n : Word) : Laws.TableRow.Statement (.has n) := by
  constructor
  · show 0x2000#16 &&& 0xFFFF#16 = 0x2000#16
    decide
  · simp [opcodeTable, Instr.row]

theorem Laws.TableRow.load (ch : Channel) (lane : BitVec 4) : Laws.TableRow.Statement (.load ch lane) := by
  constructor
  · revert lane
    cases ch <;> decide
  · simp [opcodeTable, Instr.row]

theorem Laws.TableRow.adv : Laws.TableRow.Statement .adv := by
  constructor <;> decide

theorem Laws.TableRow.step : Laws.TableRow.Statement .step := by
  constructor <;> decide

theorem Laws.TableRow.getsc (ch : Channel) : Laws.TableRow.Statement (.getsc ch) := by
  cases ch <;> constructor <;> decide

theorem Laws.TableRow.loadlo (ch : Channel) : Laws.TableRow.Statement (.loadlo ch) := by
  cases ch <;> constructor <;> decide

theorem Laws.TableRow.loadbr (ch : Channel) : Laws.TableRow.Statement (.loadbr ch) := by
  cases ch <;> constructor <;> decide

theorem Laws.TableRow.cfgw (reg : BitVec 8) (value : Word) :
    Laws.TableRow.Statement (.cfgw reg value) := by
  constructor
  · show wordR 9#4 reg &&& 0xFF00#16 = 0x9000#16
    ext i hi
    simp only [wordR, BitVec.getElem_and, BitVec.getElem_append]
    interval_cases i <;> simp
  · simp [opcodeTable, Instr.row]

theorem Laws.TableRow.cfgr (reg : BitVec 8) : Laws.TableRow.Statement (.cfgr reg) := by
  constructor
  · show wordR 10#4 reg &&& 0xFF00#16 = 0xA000#16
    ext i hi
    simp only [wordR, BitVec.getElem_and, BitVec.getElem_append]
    interval_cases i <;> simp
  · simp [opcodeTable, Instr.row]

end Sys2Proof
end

