-- ==== Sys2Proof/Laws/Registers.lean ====
section
/-! SUPPORT. The register map as a pair of inverse readings, and when a register reads as a value. -/

namespace Sys2Proof.Machine

/-- A number maps only to a register of that number which the block has. -/
theorem regOf_some {p : Params} {n : BitVec 8} {r : Reg} (h : regOf p n = some r) :
    r.number = n.toNat ∧ r.present p = true := by
  have := List.find?_some h
  simpa using this

/-- A number is unmapped only if no register the block has bears it. -/
theorem regOf_none {p : Params} {n : BitVec 8} (h : regOf p n = none) (r : Reg) (hr : r ∈ allRegs)
    (hn : r.number = n.toNat) : r.present p = false := by
  have := List.find?_eq_none.1 h r hr
  simpa [hn] using this

theorem mem_allLanes (l : BitVec 4) : l ∈ allLanes := by
  revert l
  decide

theorem mem_allRegs (r : Reg) : r ∈ allRegs := by
  cases r with
  | loff l => simp [allRegs, mem_allLanes l]
  | voff l => simp [allRegs, mem_allLanes l]
  | brbase i => cases i <;> simp [allRegs]
  | vbrptr i => cases i <;> simp [allRegs]
  | _ => simp [allRegs]

/-- A configuration register reads as a value in either phase; so do the status and identification registers. -/
theorem readReg_isSome_of_lt (s : State) (r : Reg) (h : r.number < 0x30) : (readReg s r).isSome = true := by
  cases r <;> first | rfl | (simp only [Reg.number] at h; omega)

/-- A register of the instance view holds a value exactly while an instance exists. -/
theorem readReg_isSome_of_ge (s : State) (r : Reg) (h : 0x30 ≤ r.number) :
    (readReg s r).isSome = s.inst.isSome := by
  cases r with
  | brbase i => cases i <;> simp [Reg.number, Channel.bits] at h
  | loff l => have := l.isLt; simp only [Reg.number] at h; omega
  | _ => first
    | (simp [Reg.number] at h; done)
    | (simp only [readReg, Option.isSome_map])

end Sys2Proof.Machine
end

