-- ==== Sys2Proof/Tests/Slice0.lean ====
section
/-! SUPPORT. Small tests, each about one step or one function on fixed values whose results come from the spec
(the source stands at each), and for every statement with hypotheses a witness: concrete values that meet the
hypotheses together. -/

namespace Sys2Proof.Tests

open Sys2Proof.Machine

/-! ### Helpers -/

/-- An instance: cursor `0x100`, all planes on, scales, offsets and increments of 95_test_vectors.md T8. -/
def inst (rem : BitVec 16) : Inst where
  ptr := 0x100#32
  rem := rem
  s := ⟨0x80#8, 0x40#8, 0x20#8⟩
  d := ⟨1#8, 0#8, 63#8⟩
  e := ⟨5#8, 2#8, 129#8⟩
  ord := 0x12#6
  off := Vector.replicate 16 0#32
  xlo := true
  xbr := 2#2
  loptr := 0x200#32
  brptr := ⟨0x300#32, 0x340#32, 0x380#32⟩

/-- Memory for that instance: the pixel at `0x100`, the low bytes at `0x200`, the brightness of T9. -/
def cells : Memory :=
  [(0x100, 0x32#8), (0x101, 0xC8#8), (0x102, 0xFF#8), (0x200, 0x11#8), (0x201, 0x22#8), (0x202, 0x33#8),
    (0x300, 0xE7#8), (0x340, 0xFF#8), (0x380, 0x1F#8)]

/-- The reset state with an instance and its memory. -/
def active (x : Inst) : State :=
  { State.reset with inst := some x, mem := cells }

/-- The reset state with these parameters. -/
def withParams (p : Params) : State :=
  { State.reset with params := p }

/-- What the host presents to the reset state. -/
def presenting (inputs : List Input) : State :=
  { State.reset with inputs := inputs }

/-- The next state, if there is one. -/
def after : Result → Option State
  | .next t => some t
  | .fault _ => none
  | .refused _ => none

/-- The response of the next state. -/
def answer (r : Result) : Option Response :=
  (after r).bind fun t => t.rsp

/-- The instance of the next state. -/
def instAfter (r : Result) : Option Inst :=
  (after r).bind fun t => t.inst

/-- `STATUS` and `EINFO` of the next state, and its response. -/
def faultView (r : Result) : Option (Word × CmdWord × Option Response) :=
  (after r).map fun t => (statusWord t, t.einfo, t.rsp)

/-- The fault of a machine that stops. -/
def stopOf : Result → Option Fault
  | .next _ => none
  | .fault f => some f
  | .refused _ => none

/-! ### Well-formedness: an ill-formed term for each check -/

/-- R87 (d): a lane at or above `NLANES` is refused, one below is not. -/
theorem test_wellFormed_lane :
    Instr.wellFormed ⟨3, false, 2, true, 32⟩ (.load .red 2#4) = false ∧
    Instr.wellFormed ⟨3, false, 2, true, 32⟩ (.load .red 1#4) = true := by decide

/-- R87 (e): `LOADLO` and `LOADBR` are refused without `EXT`. -/
theorem test_wellFormed_ext :
    Instr.wellFormed ⟨3, false, 2, false, 32⟩ (.loadlo .red) = false ∧
    Instr.wellFormed ⟨3, false, 2, false, 32⟩ (.loadbr .red) = false ∧
    Instr.wellFormed ⟨3, false, 2, true, 32⟩ (.loadbr .red) = true := by decide

/-- R8: `K` above 8, no lane, seventeen lanes, and an address of no or of 33 bits are refused. -/
theorem test_params_ranges :
    Params.wf ⟨9, false, 1, true, 32⟩ = false ∧ Params.wf ⟨8, false, 0, true, 32⟩ = false ∧
    Params.wf ⟨8, false, 17, true, 32⟩ = false ∧ Params.wf ⟨8, false, 1, true, 0⟩ = false ∧
    Params.wf ⟨8, false, 1, true, 33⟩ = false ∧ Params.wf ⟨8, true, 16, false, 32⟩ = true ∧
    Params.wf ⟨0, true, 1, false, 1⟩ = true := by decide

/-! ### Decoding: words written out from the bit fields of R81 to R83 and R86 -/

theorem test_decode_init : decode ⟨0b0001000000000000#16, 0xDEAD#32⟩ = .ok .init := by decide

theorem test_decode_has : decode ⟨0b0010000000000000#16, 0x10000#32⟩ = .ok (.has 0x10000#32) := by decide

/-- The lane is in bits 11:8, the channel in bits 1:0. -/
theorem test_decode_load :
    decode ⟨0b0011000100000010#16, 0#32⟩ = .ok (.load .blue 1#4) ∧
    decode ⟨0b0011100000000001#16, 0#32⟩ = .ok (.load .green 8#4) := by decide

theorem test_decode_adv : decode ⟨0b0100000000000000#16, 0#32⟩ = .ok .adv := by decide

theorem test_decode_step : decode ⟨0b0101000000000000#16, 0#32⟩ = .ok .step := by decide

theorem test_decode_getsc : decode ⟨0b0110000000000010#16, 0#32⟩ = .ok (.getsc .blue) := by decide

theorem test_decode_loadlo : decode ⟨0b0111000000000001#16, 0#32⟩ = .ok (.loadlo .green) := by decide

theorem test_decode_loadbr : decode ⟨0b1000000000000000#16, 0#32⟩ = .ok (.loadbr .red) := by decide

/-- The register number is in bits 7:0. -/
theorem test_decode_cfgw : decode ⟨0b1001000000010001#16, 6#32⟩ = .ok (.cfgw 0x11#8 6#32) := by decide

theorem test_decode_cfgr : decode ⟨0b1010000001001111#16, 6#32⟩ = .ok (.cfgr 0x4F#8) := by decide

/-- The illegal words of 95_test_vectors.md T6, T7, T9, T10, T11 that depend on no parameter. -/
theorem test_decode_refused :
    decode ⟨0x0000#16, 0#32⟩ = .error .reservedOpcode ∧ decode ⟨0xB000#16, 0#32⟩ = .error .reservedOpcode ∧
    decode ⟨0xFFFF#16, 0#32⟩ = .error .reservedOpcode ∧ decode ⟨0x2001#16, 0#32⟩ = .error .mustBeZero ∧
    decode ⟨0x3003#16, 0#32⟩ = .error .reservedChannel ∧ decode ⟨0x3004#16, 0#32⟩ = .error .mustBeZero ∧
    decode ⟨0x6003#16, 0#32⟩ = .error .reservedChannel ∧ decode ⟨0x6100#16, 0#32⟩ = .error .mustBeZero ∧
    decode ⟨0x7100#16, 0#32⟩ = .error .mustBeZero ∧ decode ⟨0x8003#16, 0#32⟩ = .error .reservedChannel ∧
    decode ⟨0x9100#16, 0#32⟩ = .error .mustBeZero ∧ decode ⟨0xA120#16, 0#32⟩ = .error .mustBeZero := by decide

/-- The reading of the opcode table's numbers: 16 bits, `arg` 0. -/
theorem test_decodeTableWord :
    decodeTableWord 16 0x9010 = some (.cfgw 0x10#8 0#32) ∧ decodeTableWord 16 0x2000 = some (.has 0#32) ∧
    decodeTableWord 16 0x1001 = none := by decide

/-- A word placed for the next step runs in it: `CFGR ID` after reset answers R44's constant. -/
theorem test_withFetchWord :
    answer (step (State.reset.withFetchWord 16 0xA024)) = some ⟨0x464C3542#32, false⟩ := by decide

/-- No two rows of the table of R86 overlap: two rows differ in a bit that both masks hold. -/
theorem test_table_rows_differ :
    opcodeTable.Pairwise (fun r q => r.pattern &&& (r.mask &&& q.mask) ≠ q.pattern &&& (r.mask &&& q.mask)) := by
  decide

/-! ### Functions (95_test_vectors.md T1 to T4, V4) -/

theorem test_scale8 :
    scale8 false 13#8 200#8 = 10#8 ∧ scale8 false 201#8 64#8 = 50#8 ∧ scale8 true 201#8 64#8 = 51#8 ∧
    scale8 true 255#8 1#8 = 1#8 ∧ scale8 false 255#8 1#8 = 0#8 := by decide

theorem test_qadd8 :
    qadd8 250#8 5#8 = 255#8 ∧ qadd8 254#8 3#8 = 255#8 ∧ qadd8 100#8 29#8 = 129#8 := by decide

theorem test_bitrev8 : bitrev8 0x12#8 = 0x48#8 ∧ bitrev8 0xFE#8 = 0x7F#8 ∧ bitrev8 0xAA#8 = 0x55#8 := by decide

/-- T2: the phases for `K = 3`, frames 1 to 8; for `K = 8`, frame 15; for `K = 0`. -/
theorem test_ditherPhase :
    ([1#8, 2#8, 3#8, 4#8, 5#8, 6#8, 7#8, 8#8].map (ditherPhase 3)) =
      [0x80#8, 0x40#8, 0xC0#8, 0x20#8, 0xA0#8, 0x60#8, 0xE0#8, 0#8] ∧
    ditherPhase 8 15#8 = 0xF0#8 ∧ ditherPhase 0 1#8 = 0#8 := by decide

/-- V4. -/
theorem test_adjust :
    adjust false 64#8 ⟨255#8, 176#8, 240#8⟩ ⟨255#8, 147#8, 41#8⟩ = ⟨64#8, 25#8, 9#8⟩ ∧
    adjust false 1#8 ⟨254#8, 255#8, 255#8⟩ ⟨255#8, 255#8, 255#8⟩ = ⟨0#8, 1#8, 1#8⟩ ∧
    adjust false 255#8 ⟨0#8, 255#8, 255#8⟩ ⟨255#8, 0#8, 255#8⟩ = ⟨0#8, 0#8, 255#8⟩ := by decide

/-! ### The commands, one step each -/

/-- P2: the first `INIT`, dithered, scale (128, 64, 255), `K = 3`, `F = 0`. -/
theorem test_init_dithered :
    (instAfter (exec .init
      { State.reset with cfg := { ConfigRegs.reset with scale := 0xFF4080#24, dmode := 1#1 } })).map
        (fun x => (x.d, x.e, x.s)) =
      some (⟨0#8, 1#8, 0#8⟩, ⟨3#8, 5#8, 2#8⟩, ⟨128#8, 64#8, 255#8⟩) := by decide

/-- P5: `BRMODE = 3` refuses `INIT` with `ConfigExt`, and the old instance is destroyed. -/
theorem test_init_configExt :
    faultView (exec .init { active (inst 1#16) with cfg := { ConfigRegs.reset with extctl := 6#3 } }) =
      some (0x61#32, 0x1000#16, some ⟨6#32, true⟩) := by decide

/-- T6, R111: the comparison is over 32 bits, so `0x10003` is not 3. -/
theorem test_has :
    answer (exec (.has 3#32) (active (inst 3#16))) = some ⟨1#32, false⟩ ∧
    answer (exec (.has 0x10003#32) (active (inst 3#16))) = some ⟨0#32, false⟩ ∧
    answer (exec (.has 0#32) (active (inst 0#16))) = some ⟨1#32, false⟩ := by decide

/-- R112 by hand: GRB order; R is byte 1, `0xC8 + 1` scaled by `0x80` is 100; G is byte 0, `0x32` by `0x40` is
12; B is byte 2, saturated, 255 by `0x20` is 31. -/
theorem test_load :
    answer (exec (.load .red 0#4) (active (inst 1#16))) = some ⟨100#32, false⟩ ∧
    answer (exec (.load .green 0#4) (active (inst 1#16))) = some ⟨12#32, false⟩ ∧
    answer (exec (.load .blue 0#4) (active (inst 1#16))) = some ⟨31#32, false⟩ := by decide

/-- T7: `AW = 16`, `PTR = 0xFFFF`, order RGB: `LOAD G` reads address 0. Lane 1 reads at its offset. R72: an
address that holds no byte is stuck. -/
theorem test_load_addresses :
    loadAddr ⟨3, false, 1, true, 16⟩ { inst 1#16 with ptr := 0xFFFF#32, ord := 0x06#6 } .green 0#4 = 0#32 ∧
    loadAddr ⟨3, false, 2, true, 32⟩
      { inst 1#16 with
        ptr := 0x400#32, ord := 0x06#6, off := (Vector.replicate 16 0#32).set 1 6#32 (by decide) } .blue 1#4 =
      0x408#32 ∧
    stopOf (exec (.load .red 0#4) { active (inst 1#16) with mem := [] }) = some (.unownedRead 0x101) := by decide

/-- T8: `ADV`, with the plane pointers in lock-step though the planes are off; the wrap at `AW = 16`. -/
theorem test_adv :
    (instAfter (exec .adv (active { inst 3#16 with xlo := false, xbr := 0#2 }))).map
        (fun x => (x.ptr, x.rem, x.loptr, x.brptr)) =
      some (0x103#32, 2#16, 0x203#32, ⟨0x301#32, 0x341#32, 0x381#32⟩) ∧
    (advInst ⟨3, false, 1, true, 16⟩ { inst 1#16 with ptr := 0xFFFF#32 }).ptr = 2#32 := by decide

/-- T11: `ADV` with no pixel remaining is `Underrun` and ends the instance. -/
theorem test_adv_underrun :
    faultView (exec .adv (active (inst 0#16))) = some (0x41#32, 0x4000#16, some ⟨4#32, true⟩) := by decide

/-- T8: `STEP` takes (1, 0, 63) to (4, 2, 66) under (5, 2, 129), also with no pixel remaining. -/
theorem test_step :
    (instAfter (exec .step (active (inst 0#16)))).map (fun x => x.d) = some ⟨4#8, 2#8, 66#8⟩ ∧
    (stepInst (stepInst (inst 0#16))).d = ⟨1#8, 0#8, 63#8⟩ := by decide

/-- T8. -/
theorem test_getsc :
    answer (exec (.getsc .red) (active (inst 0#16))) = some ⟨0x80#32, false⟩ ∧
    answer (exec (.getsc .blue) (active (inst 0#16))) = some ⟨0x20#32, false⟩ := by decide

/-- T9: GRB order over `11 22 33`. -/
theorem test_loadlo :
    answer (exec (.loadlo .red) (active (inst 1#16))) = some ⟨0x22#32, false⟩ ∧
    answer (exec (.loadlo .green) (active (inst 1#16))) = some ⟨0x11#32, false⟩ := by decide

/-- T11: `PlaneDisabled` goes before `Underrun`. -/
theorem test_loadlo_planeDisabled :
    faultView (exec (.loadlo .red) (active { inst 0#16 with xlo := false })) =
      some (0x71#32, 0x7000#16, some ⟨7#32, true⟩) := by decide

/-- T9: five bits; plane 0 for every channel in global mode, the channel's own plane otherwise. -/
theorem test_loadbr :
    answer (exec (.loadbr .green) (active { inst 1#16 with xbr := 1#2 })) = some ⟨7#32, false⟩ ∧
    answer (exec (.loadbr .green) (active (inst 1#16))) = some ⟨0x1F#32, false⟩ := by decide

/-- T10: reserved bits are dropped. -/
theorem test_cfgw :
    ((after (exec (.cfgw 0x01#8 0x12345678#32) State.reset)).bind fun t => readReg t .npix) = some 0x5678#32 ∧
    ((after (exec (.cfgw 0x05#8 0xFFFFFFF8#32) State.reset)).bind fun t => readReg t .extctl) = some 0#32 ∧
    ((after (exec (.cfgw 0x00#8 0x1FFFF#32) (withParams ⟨3, false, 1, true, 16⟩))).bind
      fun t => readReg t .base) = some 0xFFFF#32 := by decide

/-- T10: an absent lane's register and a read-only register fault. -/
theorem test_cfgw_illegal :
    faultView (exec (.cfgw 0x11#8 1#32) State.reset) = some (0x21#32, 0x9011#16, some ⟨2#32, true⟩) ∧
    faultView (exec (.cfgw 0x30#8 5#32) State.reset) = some (0x21#32, 0x9030#16, some ⟨2#32, true⟩) := by decide

/-- T10: `PARAMS` under four choices of the parameters. -/
theorem test_cfgr_params :
    readReg (withParams ⟨3, false, 1, true, 32⟩) .params = some 0x00200213#32 ∧
    readReg (withParams ⟨3, false, 1, false, 32⟩) .params = some 0x00200013#32 ∧
    readReg (withParams ⟨3, true, 1, true, 32⟩) .params = some 0x00200613#32 ∧
    readReg (withParams ⟨3, false, 2, true, 32⟩) .params = some 0x00200223#32 := by decide

/-- T10, T11: an unmapped register, and the instance view in IDLE. -/
theorem test_cfgr_faults :
    faultView (exec (.cfgr 0x50#8) State.reset) = some (0x21#32, 0xA050#16, some ⟨2#32, true⟩) ∧
    faultView (exec (.cfgr 0x31#8) State.reset) = some (0x31#32, 0xA031#16, some ⟨3#32, true⟩) := by decide

/-- R93: lines of the syntax and their words; a comment; a line that is not of the syntax. -/
theorem test_assemble :
    assemble ["CFGW LOFF1, 6 ; the second lane", "LOAD B, 1", "", "SETORDER GRB"] =
      some [⟨0x9011#16, 6#32⟩, ⟨0x3102#16, 0#32⟩, ⟨0x9004#16, 0x12#32⟩] ∧
    assemble ["LOAD Q"] = none := by decide

/-! ### Witnesses: values that meet the hypotheses of each statement together -/

/-- Parameters at the low and at the high end of R8. -/
def lowParams : Params := ⟨0, false, 1, false, 1⟩

def highParams : Params := ⟨8, true, 16, true, 32⟩

/-- A state of every address width, lane count and option at once, with an instance: scale 255, no dither. -/
def plain : State :=
  { active { inst 1#16 with s := ⟨255#8, 255#8, 255#8⟩, d := ⟨0#8, 0#8, 0#8⟩ } with params := highParams }

theorem witness_Scale8IsFloorOfScaledProduct : 1 ≤ (1#8 : Byte).toNat ∧ 1 ≤ (255#8 : Byte).toNat := by decide

theorem witness_Bitrev8ReversesTheEightBits : (0 : Nat) < 8 ∧ (7 : Nat) < 8 := by decide

theorem witness_EncodeOfDecodedWordIsTheWord :
    decode ⟨0x2000#16, 0xFFFFFFFF#32⟩ = .ok (.has 0xFFFFFFFF#32) ∧
    decode ⟨0x90FF#16, 1#32⟩ = .ok (.cfgw 0xFF#8 1#32) ∧
    decode ⟨0x3F02#16, 7#32⟩ = .ok (.load .blue 15#4) := by decide

theorem witness_DecodeFollowsTheOpcodeTable :
    decode ⟨0x3F02#16, 7#32⟩ = .ok (.load .blue 15#4) ∧
    (Instr.load .red 0#4).row ∈ opcodeTable ∧
    0x3F02#16 &&& (Instr.load .red 0#4).row.mask = (Instr.load .red 0#4).row.pattern := by decide

theorem witness_IllegalWordsRaiseIllegalCommand :
    (presenting [.command ⟨0x3100#16, 0#32⟩]).inputs = [.command ⟨0x3100#16, 0#32⟩] ∧
    illegalWord (presenting [.command ⟨0x3100#16, 0#32⟩]).params 0x3100#16 = true ∧
    illegalWord (presenting [.command ⟨0x3100#16, 0#32⟩]).params 0x3003#16 = true := by decide

theorem witness_StepRunsTheDecodedInstruction :
    (presenting [.command ⟨0x9001#16, 3#32⟩]).inputs = [.command ⟨0x9001#16, 3#32⟩] ∧
    decode ⟨0x9001#16, 3#32⟩ = .ok (.cfgw 1#8 3#32) := by decide

theorem witness_StepWithNothingPresentedKeepsAllState : State.reset.inputs = [] := by decide

theorem witness_ResetInputResetsTheBlock : (presenting [.reset]).inputs = [.reset] := by decide

/-- The first address, the last one, and the first outside, with `AW = 1`. -/
theorem witness_HostStoreChangesOneByte :
    ({ withParams lowParams with inputs := [.store 1#32 7#8] } : State).inputs = [.store 1#32 7#8] ∧
    (0#32 : Addr).toNat < 2 ^ lowParams.aw ∧ (1#32 : Addr).toNat < 2 ^ lowParams.aw ∧
    2 ^ lowParams.aw ≤ (2#32 : Addr).toNat := by decide

theorem witness_ResetStateSatisfiesTheInvariant : lowParams.wf = true ∧ highParams.wf = true := by decide

/-- A state with an instance that meets the invariant and has a next state. -/
theorem witness_EveryStepKeepsTheInvariant :
    stateInv { active (inst 1#16) with inputs := [.command ⟨0x4000#16, 0#32⟩] } = true ∧
    (after (step { active (inst 1#16) with inputs := [.command ⟨0x4000#16, 0#32⟩] })).isSome = true := by decide

theorem witness_CommandsNeverWriteMemory :
    (after (exec (.load .red 0#4) (active (inst 1#16)))).isSome = true := by decide

/-- A state with this command presented. -/
def given (s : State) (cmd : CmdWord) (arg : Word) : State :=
  { s with inputs := [.command ⟨cmd, arg⟩] }

/-- A word no command has, a lane that does not exist before `REM = 0`, `REM = 0`, and no fault. -/
theorem witness_FirstFailedCheckDecidesTheFault :
    (active (inst 0#16)).params.wf = true ∧
    (given (active (inst 0#16)) 0x3003#16 0#32).inputs = [.command ⟨0x3003#16, 0#32⟩] ∧
    commandCause ⟨0x3003#16, 0#32⟩ (active (inst 0#16)) = some .illegalCommand ∧
    commandCause ⟨0x3100#16, 0#32⟩ (active (inst 0#16)) = some .illegalCommand ∧
    commandCause ⟨0x3000#16, 0#32⟩ (active (inst 0#16)) = some .underrun ∧
    commandCause ⟨0x5000#16, 0#32⟩ (active (inst 0#16)) = none ∧
    (after (step (given (active (inst 0#16)) 0x5000#16 0#32))).isSome = true := by decide

theorem witness_CausesHaveTheirCodes : Cause.underrun.code = Cause.underrun.code := by decide

/-- A recorded fault, for the fault record's clauses. -/
def faulted : State :=
  { State.reset with err := true, cause := 4#4, einfo := 0x4000#16 }

/-- One step for each clause: cleared, kept by a second fault, a first fault, and none. -/
theorem witness_FaultRecordIsStickyUntilCleared :
    faulted.params.wf = true ∧
    (given faulted 0x9020#16 1#32).inputs = [.command ⟨0x9020#16, 1#32⟩] ∧
    (after (step (given faulted 0x9020#16 1#32))).map (fun t => t.err) = some false ∧
    (after (step (given faulted 0x4000#16 0#32))).map (fun t => (t.err, rspErr t)) = some (true, true) ∧
    (after (step (given State.reset 0#16 0#32))).map (fun t => (t.err, rspErr t)) = some (true, true) ∧
    (after (step (given State.reset 0x1000#16 0#32))).map (fun t => (t.err, t.cause)) = some (false, 0#4) ∧
    ({ faulted with inputs := [.reset] } : State).inputs = [.reset] := by decide

theorem witness_PhaseChangesOnlyByInitFaultAndReset :
    (given State.reset 0x1000#16 0#32).inputs = [.command ⟨0x1000#16, 0#32⟩] ∧
    (after (step (given State.reset 0x1000#16 0#32))).map rspErr = some false ∧
    (after (step (given (active (inst 0#16)) 0x5000#16 0#32))).map rspErr = some false ∧
    (after (step (given (active (inst 0#16)) 0x4000#16 0#32))).map rspErr = some true ∧
    ({ active (inst 0#16) with inputs := [.reset] } : State).inputs = [.reset] := by decide

theorem witness_EveryCommandAnswersInItsForm :
    (active (inst 0#16)).params.wf = true ∧
    (given (active (inst 7#16)) 0xA031#16 0#32).inputs = [.command ⟨0xA031#16, 0#32⟩] ∧
    answer (step (given (active (inst 0#16)) 0x4000#16 0#32)) = some ⟨4#32, true⟩ ∧
    answer (step (given (active (inst 7#16)) 0xA031#16 0#32)) = some ⟨7#32, false⟩ := by decide

/-- An instance whose memory holds no byte. -/
theorem witness_UnownedReadsAreStuck :
    let s : State := { active (inst 1#16) with mem := [] }
    s.inst = some (inst 1#16) ∧ (inst 1#16).rem ≠ 0#16 ∧ (0#4 : BitVec 4).toNat < s.params.nlanes ∧
    memoryRead s.mem (loadAddr s.params (inst 1#16) .blue 0#4).toNat = none ∧
    s.params.ext = true ∧ (inst 1#16).xlo = true ∧ (inst 1#16).xbr ≠ 0#2 ∧
    memoryRead s.mem (loadloAddr s.params (inst 1#16) .blue).toNat = none ∧
    memoryRead s.mem (loadbrAddr (inst 1#16) .blue).toNat = none := by decide

theorem witness_OnlyPlaneReadsReadMemory :
    (after (exec (.loadbr .blue) (active (inst 1#16)))).map (fun t => t.lastRead) = some (some 0x380#32) ∧
    (after (exec .adv (active (inst 1#16)))).map (fun t => t.lastRead) = some none := by decide

theorem witness_InitConstructsAnUnditheredInstance :
    orderLegal State.reset.cfg.order = true ∧
    (State.reset.params.ext = true → brmode State.reset.cfg.extctl ≠ 3#2) ∧
    State.reset.cfg.dmode = 0#1 := by decide

/-- A configuration with dithering on, every plane and an order that is not the default. -/
def dithered : State :=
  { State.reset with
    cfg := { ConfigRegs.reset with scale := 0xFF4080#24, dmode := 1#1, order := 0x24#6, extctl := 5#3 } }

theorem witness_InitConstructsADitheredInstance :
    orderLegal dithered.cfg.order = true ∧
    (dithered.params.ext = true → brmode dithered.cfg.extctl ≠ 3#2) ∧
    dithered.cfg.dmode = 1#1 := by decide

/-- Both clauses: an illegal order, and a legal order with `BRMODE = 3`. -/
theorem witness_InitRefusesIllegalConfiguration :
    orderLegal ({ ConfigRegs.reset with order := 0x3F#6 } : ConfigRegs).order = false ∧
    orderLegal ConfigRegs.reset.order = true ∧ State.reset.params.ext = true ∧
    brmode ({ ConfigRegs.reset with extctl := 6#3 } : ConfigRegs).extctl = 3#2 := by decide

theorem witness_DitherPhaseVisitsEveryMultipleOnce :
    (0 : Nat) ≤ 8 ∧ (0 : Nat) < 2 ^ 0 ∧ (8 : Nat) ≤ 8 ∧ 255 < 2 ^ 8 := by decide

theorem witness_OnlyTheLowBitsOfTheFrameCounterMatter :
    dithered.params.k ≤ 8 ∧ (0xF8#8 : Byte).toNat % 2 ^ dithered.params.k = dithered.frame.toNat % 2 ^ dithered.params.k ∧
    (after (exec .init dithered)).isSome = true ∧
    (after (exec .init { dithered with frame := 0xF8#8 })).isSome = true := by decide

theorem witness_InitialOffsetIsAtMostTheIncrement : 2 ≤ (2#8 : Byte).toNat ∧ 2 ≤ (255#8 : Byte).toNat := by decide

theorem witness_HasAnswersWhetherPixelsRemain : (active (inst 0xFFFF#16)).inst = some (inst 0xFFFF#16) := by decide

theorem witness_LoadAnswersTheDitheredScaledSample :
    (active (inst 1#16)).inst = some (inst 1#16) ∧ (0#4 : BitVec 4).toNat < (active (inst 1#16)).params.nlanes ∧
    (inst 1#16).rem ≠ 0#16 ∧
    addrOf 32 ((inst 1#16).ptr.toNat + (laneOffset (inst 1#16).off 0#4).toNat +
      (ordField (inst 1#16).ord .red).toNat) = 0x101#32 ∧
    memoryRead (active (inst 1#16)).mem 0x101 = some 0xC8#8 := by decide

/-- Lane 15 of 16, `F = 1`, scale 255. -/
theorem witness_LoadWithoutDitherIsPlainScaling :
    plain.inst = some { inst 1#16 with s := ⟨255#8, 255#8, 255#8⟩, d := ⟨0#8, 0#8, 0#8⟩ } ∧
    (15#4 : BitVec 4).toNat < plain.params.nlanes ∧ (inst 1#16).rem ≠ 0#16 ∧
    plain.inst.map (fun x => (x.d.get .red, x.s.get .red)) = some (0#8, 255#8) ∧
    plain.params.scale8Fixed = true ∧
    (plain.inst.bind fun x => memoryRead plain.mem (loadAddr plain.params x .red 15#4).toNat) = some 0xC8#8 := by
  decide

/-- The pixel (R, G, B) = (200, 50, 255) stored in the order GRB. -/
theorem witness_LoadRecoversPermutedChannels :
    plain.inst.map (fun x => (x.ord, x.rem, x.d.get .blue, x.s.get .blue)) =
      some (OrderName.grb.code, 1#16, 0#8, 255#8) ∧
    (0#4 : BitVec 4).toNat < plain.params.nlanes ∧ plain.params.scale8Fixed = true ∧
    plain.mem.take 3 = [(0x100, (pixelBytes ⟨200#8, 50#8, 255#8⟩ .grb).c0),
      (0x101, (pixelBytes ⟨200#8, 50#8, 255#8⟩ .grb).c1),
      (0x102, (pixelBytes ⟨200#8, 50#8, 255#8⟩ .grb).c2)] := by decide

theorem witness_AdvMovesTheCursorOnePixel :
    (active (inst 1#16)).inst = some (inst 1#16) ∧ (inst 1#16).rem ≠ 0#16 := by decide

theorem witness_StepTogglesTheDitherOffsets :
    (active (inst 0#16)).inst = some (inst 0#16) ∧ ditherWf (inst 0#16) = true := by decide

theorem witness_DitherOffsetsHavePeriodTwo : (active (inst 0#16)).inst = some (inst 0#16) := by decide

theorem witness_GetscAnswersTheLatchedScale : (active (inst 0#16)).inst = some (inst 0#16) := by decide

theorem witness_LoadloAnswersTheStoredLowByte :
    (active (inst 1#16)).inst = some (inst 1#16) ∧ (active (inst 1#16)).params.ext = true ∧
    (inst 1#16).xlo = true ∧ (inst 1#16).rem ≠ 0#16 ∧
    addrOf 32 ((inst 1#16).loptr.toNat + (ordField (inst 1#16).ord .blue).toNat) = 0x202#32 ∧
    memoryRead (active (inst 1#16)).mem 0x202 = some 0x33#8 := by decide

/-- Both modes. -/
theorem witness_LoadbrAnswersTheStoredBrightness :
    (active (inst 1#16)).inst = some (inst 1#16) ∧ (active (inst 1#16)).params.ext = true ∧
    (inst 1#16).xbr = 2#2 ∧ ({ inst 1#16 with xbr := 1#2 } : Inst).xbr = 1#2 ∧ (inst 1#16).rem ≠ 0#16 ∧
    (inst 1#16).brptr.get .blue = 0x380#32 ∧ (inst 1#16).brptr.c0 = 0x300#32 ∧
    memoryRead (active (inst 1#16)).mem 0x380 = some 0x1F#8 ∧
    memoryRead (active (inst 1#16)).mem 0x300 = some 0xE7#8 := by decide

/-- A run without `INIT` that leaves an instance. -/
theorem witness_InstanceAfterARunIsDetermined :
    stateInv (active (inst 1#16)) = true ∧ (active (inst 1#16)).inst = some (inst 1#16) ∧
    (∀ i ∈ [Instr.adv, .step], i ≠ .init) ∧
    (instAfter (runInstrs [.adv, .step] (active (inst 1#16)))).isSome = true := by decide

/-- The three plane kinds, after a run that keeps the pixel. -/
theorem witness_ReadsStayInTheDeclaredExtents :
    stateInv (active (inst 1#16)) = true ∧ (active (inst 1#16)).inst = some (inst 1#16) ∧
    (∀ i ∈ [Instr.step], i ≠ .init) ∧
    [Instr.load .blue 0#4, .loadlo .red, .loadbr .green].map (fun i =>
        (after (runInstrs [.step, i] (active (inst 1#16)))).bind fun u => u.lastRead) =
      [some 0x102#32, some 0x201#32, some 0x340#32] := by decide

/-- Two states that differ in the configuration, the counter and the fault record. -/
theorem witness_PullCommandsSeeOnlyInstanceAndMemory :
    let u : State := { active (inst 1#16) with cfg := dithered.cfg, frame := 9#8, err := true, cause := 1#4 }
    u.params = (active (inst 1#16)).params ∧ u.inst = (active (inst 1#16)).inst ∧
    u.mem = (active (inst 1#16)).mem ∧
    (after (exec (.load .red 0#4) (active (inst 1#16)))).isSome = true ∧
    (∀ r v, Instr.load .red 0#4 ≠ .cfgw r v) ∧ (∀ r, Instr.load .red 0#4 ≠ .cfgr r) ∧
    Instr.load .red 0#4 ≠ .init :=
  ⟨by decide, by decide, by decide, by decide, by simp, by simp, by decide⟩

/-- The host owns all that the instance of `active` with one pixel has left to read. -/
theorem witness_ownsRest : ownsRest (active (inst 1#16)) (inst 1#16) := by
  refine ⟨?_, ?_, ?_, ?_⟩
  · intro l hl a ⟨j, hj, ha⟩
    have hl : l.toNat < 1 := hl
    have : l = 0#4 := BitVec.eq_of_toNat_eq (by simp; omega)
    subst this ha
    have hj : j < 3 := hj
    interval_cases j <;> decide
  · rintro _ a ⟨j, hj, rfl⟩
    have hj : j < 3 := hj
    interval_cases j <;> decide
  · intro h
    exact absurd h (by decide)
  · rintro _ ch a ⟨j, hj, rfl⟩
    have hj : j < 1 := hj
    interval_cases j
    cases ch <;> decide

theorem witness_OwnedExtentsNeverStop :
    stateInv (active (inst 1#16)) = true ∧ (active (inst 1#16)).inst = some (inst 1#16) ∧
    ownsRest (active (inst 1#16)) (inst 1#16) ∧ Instr.adv ≠ .init ∧
    (instAfter (exec .adv (active (inst 1#16)))).isSome = true :=
  ⟨by decide, by decide, witness_ownsRest, by decide, by decide⟩

theorem witness_CanonicalLoopPullsEveryPixel :
    stateInv (active (inst 1#16)) = true ∧ (active (inst 1#16)).inst = some (inst 1#16) ∧
    ownsRest (active (inst 1#16)) (inst 1#16) :=
  ⟨by decide, by decide, witness_ownsRest⟩

/-- The ends of the ranges: the first number past the lanes is unmapped, the last lane of sixteen is not. -/
theorem witness_RegisterMapIsComplete :
    lowParams.wf = true ∧ highParams.wf = true ∧ highParams.ext = true ∧
    (withParams lowParams).params = lowParams ∧ mappedNumber lowParams 0x05 = false ∧
    mappedNumber lowParams 0x11 = false ∧ mappedNumber highParams 0x50 = false ∧
    (15#4 : BitVec 4).toNat < highParams.nlanes ∧ (0#4 : BitVec 4).toNat < lowParams.nlanes := by decide

theorem witness_CfgwStoresTheImplementedBits :
    (withParams highParams).params.wf = true ∧
    regOf (withParams highParams).params 0x1F#8 = some (.loff 15#4) ∧ isConfigReg (.loff 15#4) = true ∧
    regOf (withParams highParams).params 0x00#8 = some .base ∧ isConfigReg .base = true ∧
    Reg.base ≠ .loff 15#4 := by decide

theorem witness_CfgwOfStatusClearsTheFaultRecord :
    (0xFFFFFFFF#32 : Word).getLsbD 0 = true ∧ (0xFFFFFFFE#32 : Word).getLsbD 0 = false := by decide

/-- The last number below the instance view and the first one of it, in both phases. -/
theorem witness_CfgrAnswersTheRegister :
    regOf State.reset.params 0x24#8 = some .ident ∧ Reg.ident.number < 0x30 ∧
    regOf State.reset.params 0x30#8 = some .vptr ∧ 0x30 ≤ Reg.vptr.number ∧ State.reset.inst = none ∧
    regOf (active (inst 0#16)).params 0x30#8 = some .vptr ∧ (active (inst 0#16)).inst.isSome = true := by decide

/-- `AW = 1` and `AW = 32`, the highest address of each in every address register, the last lane included. -/
theorem witness_ConfigurationRegistersReadTheirBits :
    cfgWf lowParams { ConfigRegs.reset with base := 1#32 } = true ∧
    cfgWf lowParams { ConfigRegs.reset with base := 2#32 } = false ∧
    cfgWf highParams { ConfigRegs.reset with
      base := 0xFFFFFFFF#32
      npix := 0xFFFF#16
      extctl := 7#3
      lobase := 0xFFFFFFFF#32
      brbase := ⟨0xFFFFFFFF#32, 0xFFFFFFFF#32, 0xFFFFFFFF#32⟩
      loff := ConfigRegs.reset.loff.set 15 0xFFFFFFFF#32 (by decide) } = true := by decide

theorem witness_InstanceViewShowsTheInstance : (active (inst 0#16)).inst = some (inst 0#16) := by decide

theorem witness_IdentificationRegistersReadTheirConstants :
    (withParams lowParams).params.wf = true ∧ (withParams highParams).params.wf = true ∧
    0x21 ≤ (0x21#8 : BitVec 8).toNat ∧ (0x24#8 : BitVec 8).toNat ≤ 0x24 := by decide

theorem witness_AdjustIsTheScaledProduct :
    (⟨0#8, 255#8, 255#8⟩ : Triplet Byte).get .red = 0#8 := by decide

theorem witness_AdjustIsZeroAtZeroAndMonotone : (254#8 : Byte) ≤ 255#8 := by decide

/-- A show call with a lane, planes and dithering on. -/
def showCall : ShowCall where
  base := 0x100#32
  npix := 2#16
  scale := .explicit ⟨128#8, 64#8, 255#8⟩
  dither := true
  order := 0x12#6
  lanes := [(0#4, 0#32), (15#4, 6#32)]
  planes := some ⟨5#3, 0x200#32, ⟨0x300#32, 0x340#32, 0x380#32⟩⟩

theorem witness_ShowSetupConstructsTheInstance :
    (withParams highParams).params.wf = true ∧ orderLegal showCall.order = true ∧
    addrFits highParams showCall.base = true ∧
    (∀ l ∈ showCall.lanes, l.1.toNat < highParams.nlanes ∧ addrFits highParams l.2 = true) ∧
    (showCall.lanes.map fun l => l.1).Nodup ∧
    (∀ pl, showCall.planes = some pl → highParams.ext = true ∧ brmode pl.extctl ≠ 3#2 ∧
      addrFits highParams pl.lobase = true ∧ tripletFits highParams pl.brbase = true) ∧
    (showCall.planes = none → highParams.ext = true → brmode (withParams highParams).cfg.extctl ≠ 3#2) := by
  refine ⟨by decide, by decide, by decide, ?_, by decide, ?_, by decide⟩
  · simp only [showCall, List.mem_cons, List.not_mem_nil, or_false, forall_eq_or_imp, forall_eq]
    decide
  · rintro pl ⟨⟩
    decide

end Sys2Proof.Tests
end

section
/-! PROOFS. The named values of `scale8` (00_scope.md R13), the bits of `bitrev8` (R15), and the step of a
command that decodes (R18, R19), with the statements about them settled. -/

namespace Sys2Proof.Machine

/-- By `scale8_le`: the result never exceeds the scale, whichever `F` the block has. -/
@[simp] theorem scale8_zero_right (f : Bool) (a : Byte) : scale8 f a 0#8 = 0#8 := by
  apply BitVec.eq_of_toNat_eq
  have hle := scale8_le f a 0#8
  simpa only [BitVec.toNat_ofNat, Nat.zero_mod, Nat.le_zero] using hle

@[simp] theorem scale8_zero_left (f : Bool) (b : Byte) : scale8 f 0#8 b = 0#8 := by
  apply BitVec.eq_of_toNat_eq
  rw [scale8_toNat, BitVec.toNat_ofNat, Nat.zero_mod, Nat.zero_mul, Nat.zero_div]

/-- With `F = 0` the scale 255 is not the identity: it loses 1 (90_conflicts.md C2). -/
theorem scale8_false_max_toNat (a : Byte) : (scale8 false a 255#8).toNat = a.toNat - 1 := by
  have ha := byte_toNat_lt a
  have hval : (scale8 false a 255#8).toNat = a.toNat * 255 / 256 := scale8_toNat false a 255#8
  omega

@[simp] theorem scale8_true_max (a : Byte) : scale8 true a 255#8 = a := by
  apply BitVec.eq_of_toNat_eq
  have hval : (scale8 true a 255#8).toNat = a.toNat * 256 / 256 := scale8_toNat true a 255#8
  rw [hval, Nat.mul_div_cancel _ (by decide)]

/-- Bit `i` of the concatenation is the operand extracted at position `7-i`. -/
theorem bitrev8_getLsbD (x : Byte) {i : Nat} (hi : i < 8) : (bitrev8 x).getLsbD i = x.getLsbD (7 - i) := by
  unfold bitrev8
  interval_cases i <;> simp only [BitVec.getLsbD_append, BitVec.getLsbD_extractLsb'] <;> rfl

theorem step_of_decode_ok {s : State} {c : Command} {rest : List Input} {i : Instr}
    (hs : s.inputs = .command c :: rest) (hc : decode c = .ok i) :
    step s = exec i { s with inputs := rest } := by
  simp only [step, hs, hc]

/-- Settles O1: the value is `scale8_toNat`, and each named value is a lemma about that formula. -/
theorem scale8IsFloorOfScaledProduct : Obligations.Scale8IsFloorOfScaledProduct := by
  refine ⟨fun f a b => ⟨scale8_toNat f a b, scale8_product_lt f a b⟩, fun a => ?_, by decide, fun a => ?_⟩
  · exact ⟨scale8_zero_right false a, scale8_zero_left false a, fun _ => scale8_false_max_toNat a⟩
  · exact ⟨scale8_zero_right true a, scale8_true_max a, scale8_toNat true 255#8 a⟩

/-- Settles O2: the sum is capped before it is narrowed, so nothing is lost. -/
theorem qadd8SaturatesAt255 : Obligations.Qadd8SaturatesAt255 :=
  qadd8_toNat

/-- Settles O3: the bits by `bitrev8_getLsbD`, the rule's six examples by evaluation. -/
theorem bitrev8ReversesTheEightBits : Obligations.Bitrev8ReversesTheEightBits :=
  ⟨fun x _ hi => bitrev8_getLsbD x hi, by decide⟩

/-- Settles O10: the decoded branch of `step`. -/
theorem stepRunsTheDecodedInstruction : Obligations.StepRunsTheDecodedInstruction :=
  fun _ _ _ _ hs hc => step_of_decode_ok hs hc

end Sys2Proof.Machine
end

section
/-! PROOFS. The register map (10_state.md R45) and what each register reads as (R24 to R30, R40 to R44), with the
statements about them settled. -/

namespace Sys2Proof.Machine

/-! ### Words -/

/-- A concatenation as a number: the high part counts in units of `2^n`. -/
theorem append_toNat {m n : Nat} (x : BitVec m) (y : BitVec n) :
    (x ++ y).toNat = x.toNat * 2 ^ n + y.toNat := by
  rw [BitVec.toNat_append, ← Nat.shiftLeft_add_eq_or_of_lt y.isLt, Nat.shiftLeft_eq]

/-- A format R word (30_encoding.md R83) is its opcode's pattern with the register number in the low byte. -/
theorem wordR_eq_or (op : BitVec 4) (reg : BitVec 8) :
    wordR op reg = (op ++ 0#12) ||| reg.setWidth 16 := by
  apply BitVec.eq_of_toNat_eq
  have hreg : reg.setWidth 16 = 0#8 ++ reg := by rw [BitVec.setWidth_eq_append (by decide)]; rfl
  have hop : op ++ 0#12 = (op ++ 0#4) ++ 0#8 := by rw [BitVec.append_assoc]; rfl
  rw [hreg, hop, BitVec.or_append, BitVec.or_zero, BitVec.zero_or]
  rfl

theorem encode_cfgr_cmd (reg : BitVec 8) : (encode (.cfgr reg)).cmd = 0xA000#16 ||| reg.setWidth 16 :=
  wordR_eq_or 10#4 reg

theorem encode_cfgw_cmd (reg : BitVec 8) (v : Word) :
    (encode (.cfgw reg v)).cmd = 0x9000#16 ||| reg.setWidth 16 :=
  wordR_eq_or 9#4 reg

/-! ### The map of register numbers -/

/-- No two registers have the same number (R45). -/
theorem regNumber_injective {r q : Reg} (h : r.number = q.number) : r = q := by
  have hnodup : (allRegs.map Reg.number).Nodup := by decide
  exact List.inj_on_of_nodup_map hnodup (mem_allRegs r) (mem_allRegs q) h

/-- A number maps to a register exactly when it is that register's number and the block has the register. -/
theorem regOf_eq_some_iff {p : Params} {n : BitVec 8} {r : Reg} :
    regOf p n = some r ↔ r.number = n.toNat ∧ r.present p = true := by
  refine ⟨regOf_some, fun ⟨hn, hp⟩ => ?_⟩
  cases hq : regOf p n with
  | none => simp [regOf_none hq r (mem_allRegs r) hn] at hp
  | some q => rw [regNumber_injective ((regOf_some hq).1.trans hn.symm)]

theorem regOf_isSome_iff {p : Params} {n : BitVec 8} :
    (regOf p n).isSome = true ↔ ∃ r : Reg, r.number = n.toNat ∧ r.present p = true := by
  simp only [Option.isSome_iff_exists, regOf_eq_some_iff]

/-- The number of a register that the block has is in the map of R45. -/
theorem mappedNumber_of_present {p : Params} {r : Reg} (h : r.present p = true) :
    mappedNumber p r.number = true := by
  cases r with
  | brbase i => cases i <;> simp_all [mappedNumber, Reg.present, Reg.number, Channel.bits]
  | vbrptr i => cases i <;> simp_all [mappedNumber, Reg.present, Reg.number, Channel.bits]
  | _ => simp_all [mappedNumber, Reg.present, Reg.number]

/-- A lane number below `NLANES` as the four bits of a lane field. -/
theorem laneBits_toNat {p : Params} (hp : p.wf = true) {k : Nat} (hk : k < p.nlanes) :
    (BitVec.ofNat 4 k).toNat = k := by
  simp only [Params.wf, Bool.and_eq_true, decide_eq_true_eq] at hp
  simp only [BitVec.toNat_ofNat]
  omega

theorem exists_reg_of_mem {p : Params} {n : Nat} (rs : List Reg) (hn : n ∈ rs.map Reg.number)
    (hrs : ∀ r ∈ rs, r.present p = true) : ∃ r : Reg, r.number = n ∧ r.present p = true := by
  obtain ⟨r, hr, hrn⟩ := List.mem_map.1 hn
  exact ⟨r, hrn, hrs r hr⟩

/-- Every number in the map of R45 is that of a register the block has. -/
theorem exists_reg_of_mappedNumber {p : Params} (hp : p.wf = true) {n : Nat}
    (h : mappedNumber p n = true) : ∃ r : Reg, r.number = n ∧ r.present p = true := by
  simp only [mappedNumber, Bool.or_eq_true, Bool.and_eq_true, decide_eq_true_eq] at h
  rcases h with (((((h | ⟨he, h⟩) | h) | h) | h) | ⟨he, h⟩) | h
  · exact exists_reg_of_mem [.base, .npix, .scale, .dmode, .order]
      (by simp [Reg.number]; omega) (by simp [Reg.present])
  · exact exists_reg_of_mem [.extctl, .lobase, .brbase .red, .brbase .green, .brbase .blue]
      (by simp [Reg.number, Channel.bits]; omega) (by simp [Reg.present, he])
  · have hl := laneBits_toNat hp (k := n - 0x10) (by omega)
    exact ⟨.loff (BitVec.ofNat 4 (n - 0x10)), by simp only [Reg.number, hl]; omega,
      by simp only [Reg.present, hl, decide_eq_true_eq]; omega⟩
  · exact exists_reg_of_mem [.status, .einfo, .frame, .params, .ident]
      (by simp [Reg.number]; omega) (by simp [Reg.present])
  · exact exists_reg_of_mem [.vptr, .vrem, .vd, .ve, .vs, .vord]
      (by simp [Reg.number]; omega) (by simp [Reg.present])
  · exact exists_reg_of_mem [.vloptr, .vbrptr .red, .vbrptr .green, .vbrptr .blue]
      (by simp [Reg.number, Channel.bits]; omega) (by simp [Reg.present, he])
  · have hl := laneBits_toNat hp (k := n - 0x40) (by omega)
    exact ⟨.voff (BitVec.ofNat 4 (n - 0x40)), by simp only [Reg.number, hl]; omega,
      by simp only [Reg.present, hl, decide_eq_true_eq]; omega⟩

/-- The two readings of R45 agree: the map of registers and the map of numbers. -/
theorem regOf_isSome_eq_mappedNumber {p : Params} (hp : p.wf = true) (n : BitVec 8) :
    (regOf p n).isSome = mappedNumber p n.toNat := by
  rw [Bool.eq_iff_iff, regOf_isSome_iff]
  constructor
  · rintro ⟨r, hn, hr⟩
    exact hn ▸ mappedNumber_of_present hr
  · exact exists_reg_of_mappedNumber hp

theorem regOf_eq_none_iff {p : Params} (hp : p.wf = true) {n : BitVec 8} :
    regOf p n = none ↔ mappedNumber p n.toNat = false := by
  rw [← regOf_isSome_eq_mappedNumber hp, Option.isSome_eq_false_iff, Option.isNone_iff_eq_none]

/-! ### Register access -/

theorem exec_cfgr_unmapped {s : State} {n : BitVec 8} (h : regOf s.params n = none) :
    exec (.cfgr n) s = trap (.cfgr n) .illegalRegister s := by
  simp only [exec, execCfgr, h]

theorem exec_cfgr_read {s : State} {n : BitVec 8} {r : Reg} {v : Word} (h : regOf s.params n = some r)
    (hv : readReg s r = some v) : exec (.cfgr n) s = .next (respond v s) := by
  simp only [exec, execCfgr, h, hv]

theorem exec_cfgw_unmapped {s : State} {n : BitVec 8} {v : Word} (h : regOf s.params n = none) :
    exec (.cfgw n v) s = trap (.cfgw n v) .illegalRegister s := by
  simp only [exec, execCfgw, h]

theorem exec_cfgw_readOnly {s : State} {n : BitVec 8} {v : Word} {r : Reg} (h : regOf s.params n = some r)
    (hw : writeReg s r v = none) : exec (.cfgw n v) s = trap (.cfgw n v) .illegalRegister s := by
  simp only [exec, execCfgw, h, hw]

theorem exec_cfgw_write {s u : State} {n : BitVec 8} {v : Word} {r : Reg} (h : regOf s.params n = some r)
    (hw : writeReg s r v = some u) : exec (.cfgw n v) s = .next (respond 0#32 u) := by
  simp only [exec, execCfgw, h, hw]

/-- The registers above `STATUS` are the ones that cannot be written (R41 to R44). -/
theorem writeReg_eq_none_iff {s : State} {r : Reg} {v : Word} :
    writeReg s r v = none ↔ 0x21 ≤ r.number := by
  cases r with
  | brbase i => cases i <;> simp [writeReg, writeCfg, Reg.number, Channel.bits]
  | loff l =>
    have := l.isLt
    simp only [writeReg, writeCfg, Reg.number, reduceCtorEq, if_false, Option.map_some, false_iff]
    omega
  | voff _ | vbrptr _ =>
    simp only [writeReg, writeCfg, Reg.number, reduceCtorEq, if_false, Option.map_none, true_iff]
    omega
  | _ => simp [writeReg, writeCfg, Reg.number]

/-- Settles O47: the map is read both ways by `regOf_isSome_eq_mappedNumber`, and each listed number is the one of
its register, which the block has. -/
theorem registerMapIsComplete : Obligations.RegisterMapIsComplete := by
  intro p hp
  refine ⟨regOf_isSome_eq_mappedNumber hp, ?_, ?_, fun he => ?_, fun l hl => ?_⟩
  · rintro s n v rfl hn
    have hnone := (regOf_eq_none_iff hp).2 hn
    rw [exec_cfgr_unmapped hnone, exec_cfgw_unmapped hnone, ← encode_cfgr_cmd, ← encode_cfgw_cmd n v]
    exact ⟨rfl, rfl⟩
  · simp only [regOf_eq_some_iff]
    exact ⟨⟨rfl, rfl⟩, ⟨rfl, rfl⟩, ⟨rfl, rfl⟩, ⟨rfl, rfl⟩, ⟨rfl, rfl⟩, ⟨rfl, rfl⟩, ⟨rfl, rfl⟩, ⟨rfl, rfl⟩,
      ⟨rfl, rfl⟩, ⟨rfl, rfl⟩, ⟨rfl, rfl⟩, ⟨rfl, rfl⟩, ⟨rfl, rfl⟩, ⟨rfl, rfl⟩, ⟨rfl, rfl⟩, ⟨rfl, rfl⟩⟩
  · simp only [regOf_eq_some_iff]
    exact ⟨⟨rfl, he⟩, ⟨rfl, he⟩, ⟨rfl, he⟩, ⟨rfl, he⟩, ⟨rfl, he⟩, ⟨rfl, he⟩, ⟨rfl, he⟩, ⟨rfl, he⟩, ⟨rfl, he⟩⟩
  · have hlane := l.isLt
    simp only [regOf_eq_some_iff, Reg.number, Reg.present, decide_eq_true_eq, BitVec.toNat_add,
      BitVec.toNat_setWidth, BitVec.toNat_ofNat]
    omega

end Sys2Proof.Machine
end

section
/-! PROOFS. What each register reads as (10_state.md R24 to R30, R40 to R44) and the reset values (R50), with the
statements about them settled. -/

namespace Sys2Proof.Machine

/-! ### Lane offsets and address fields -/

theorem lanesFit_iff {p : Params} {off : Vector Addr 16} :
    lanesFit p off = true ↔ ∀ l : BitVec 4, addrFits p (laneOffset off l) = true ∧
      (l.toNat < p.nlanes ∨ laneOffset off l = 0#32) := by
  simp [lanesFit, mem_allLanes]

theorem tripletFits_iff {p : Params} {t : Triplet Addr} :
    tripletFits p t = true ↔ ∀ c, addrFits p (t.get c) = true := by
  simp only [tripletFits, Bool.and_eq_true]
  constructor
  · rintro ⟨h0, h1, h2⟩ (_ | _ | _)
    · exact h0
    · exact h1
    · exact h2
  · exact fun h => ⟨h .red, h .green, h .blue⟩

/-- The parts of `cfgWf`: addresses that fit, and nothing of an absent option. -/
theorem cfgWf_iff {p : Params} {c : ConfigRegs} :
    cfgWf p c = true ↔ addrFits p c.base = true ∧ addrFits p c.lobase = true ∧
      (∀ i, addrFits p (c.brbase.get i) = true) ∧ lanesFit p c.loff = true ∧
      (p.ext = false → c.extctl = 0#3 ∧ c.lobase = 0#32 ∧ c.brbase = ⟨0#32, 0#32, 0#32⟩) := by
  cases hp : p.ext <;> simp [cfgWf, hp, tripletFits_iff, and_assoc]

@[simp] theorem laneOffset_reset (l : BitVec 4) : laneOffset ConfigRegs.reset.loff l = 0#32 :=
  Vector.getElem_replicate _

@[simp] theorem addrFits_zero (p : Params) : addrFits p 0#32 = true := by
  simp [addrFits]

theorem addrFits_addrOf (p : Params) (n : Nat) : addrFits p (addrOf p.aw n) = true :=
  decide_eq_true (addrOf_lt p.aw n)

theorem addrFits_lt {p : Params} {a : Addr} (h : addrFits p a = true) : a.toNat < 2 ^ p.aw :=
  of_decide_eq_true h

theorem cfgWf_reset (p : Params) : cfgWf p ConfigRegs.reset = true := by
  refine cfgWf_iff.2 ⟨addrFits_zero p, addrFits_zero p, ?_, ?_, fun _ => ⟨rfl, rfl, rfl⟩⟩
  · rintro (_ | _ | _) <;> exact addrFits_zero p
  · exact lanesFit_iff.2 fun l => by simp

/-! ### Packed words -/

/-- Three bytes packed in a word, as a number. -/
theorem packTriplet_eq_ofNat (t : Triplet Byte) :
    packTriplet t = BitVec.ofNat 32 (t.c0.toNat + 256 * t.c1.toNat + 65536 * t.c2.toNat) := by
  apply BitVec.eq_of_toNat_eq
  have h0 := byte_toNat_lt t.c0
  have h1 := byte_toNat_lt t.c1
  have h2 := byte_toNat_lt t.c2
  simp only [packTriplet, append_toNat, BitVec.toNat_ofNat]
  omega

theorem vordWord_eq_ofNat (p : Params) (x : Inst) :
    vordWord p x = BitVec.ofNat 32 (x.ord.toNat +
      (if p.ext then 64 * x.xlo.toNat + 128 * x.xbr.toNat else 0)) := by
  apply BitVec.eq_of_toNat_eq
  have hord := x.ord.isLt
  have hxbr := x.xbr.isLt
  have hxlo := Bool.toNat_le x.xlo
  unfold vordWord
  split <;> simp only [append_toNat, BitVec.toNat_ofBool, BitVec.toNat_ofNat] <;> omega

/-- `PARAMS` as a number: with the ranges of R8 no field spills into its neighbour. -/
theorem paramsWord_eq_ofNat {p : Params} (hp : p.wf = true) :
    paramsWord p = BitVec.ofNat 32 (p.k + 16 * p.nlanes + 512 * p.ext.toNat +
      1024 * p.scale8Fixed.toNat + 65536 * p.aw) := by
  apply BitVec.eq_of_toNat_eq
  simp only [Params.wf, Bool.and_eq_true, decide_eq_true_eq] at hp
  have hext := Bool.toNat_le p.ext
  have hf := Bool.toNat_le p.scale8Fixed
  simp only [paramsWord, append_toNat, BitVec.toNat_ofBool, BitVec.toNat_ofNat]
  omega

/-- `SCALE` as a number is its three fields. -/
theorem scale_toNat_eq_fields (v : BitVec 24) :
    v.toNat = (scaleField v .red).toNat + 256 * (scaleField v .green).toNat +
      65536 * (scaleField v .blue).toNat := by
  have := v.isLt
  simp only [scaleField, BitVec.extractLsb'_toNat, Nat.shiftRight_eq_div_pow]
  omega

/-! ### `STATUS` -/

theorem statusWord_err (s : State) : (statusWord s).getLsbD 0 = s.err := by
  simp only [statusWord, BitVec.getLsbD_append]
  simp

theorem statusWord_active (s : State) : (statusWord s).getLsbD 1 = s.inst.isSome := by
  simp only [statusWord, BitVec.getLsbD_append]
  simp

/-- `STATUS` as a number: `ERR` at bit 0, `ACTIVE` at bit 1, `CAUSE` from bit 4, nothing elsewhere (R40). -/
theorem statusWord_toNat (s : State) :
    (statusWord s).toNat = s.err.toNat + 2 * s.inst.isSome.toNat + 16 * s.cause.toNat := by
  simp only [statusWord, append_toNat, BitVec.toNat_ofBool, BitVec.toNat_ofNat]
  omega

/-- Settles O52: the two flags are bits, and the other fields are read from `statusWord_toNat`. -/
theorem statusRegisterShowsErrActiveCause : Obligations.StatusRegisterShowsErrActiveCause := by
  intro s
  have hword := statusWord_toNat s
  have herr := Bool.toNat_le s.err
  have hactive := Bool.toNat_le s.inst.isSome
  have hcause := s.cause.isLt
  refine ⟨rfl, statusWord_err s, statusWord_active s, ?_, ?_, ?_, rfl⟩
  all_goals
    apply BitVec.eq_of_toNat_eq
    simp only [BitVec.extractLsb'_toNat, Nat.shiftRight_eq_div_pow, BitVec.toNat_ofNat, hword]
    omega

/-! ### The statements about reading registers -/

/-- Settles O53: the packed registers as numbers; the others are read as they are. -/
theorem instanceViewShowsTheInstance : Obligations.InstanceViewShowsTheInstance := by
  intro s x hx
  simp only [readReg, hx, Option.map_some, packTriplet_eq_ofNat, vordWord_eq_ofNat, BitVec.ofNat_toNat,
    implies_true, and_self]

/-- Settles O51: the address registers are the fields of `cfgWf`; the others are narrower than a word. -/
theorem configurationRegistersReadTheirBits : Obligations.ConfigurationRegistersReadTheirBits := by
  intro s h
  obtain ⟨hbase, hlobase, hbrbase, hloff, _⟩ := cfgWf_iff.1 h
  refine ⟨⟨_, rfl, rfl, addrFits_lt hbase⟩, ⟨_, rfl, ?_⟩, ⟨_, rfl, ?_⟩, ⟨_, rfl, ?_⟩, ⟨_, rfl, ?_⟩,
    ⟨_, rfl, ?_, ?_, ?_⟩, ⟨_, rfl, rfl, addrFits_lt hlobase⟩,
    fun i => ⟨_, rfl, rfl, addrFits_lt (hbrbase i)⟩,
    fun l => ⟨_, rfl, rfl, addrFits_lt (lanesFit_iff.1 hloff l).1⟩⟩
  · exact BitVec.toNat_setWidth_of_le (by decide)
  · rw [BitVec.toNat_setWidth_of_le (by decide), ← scale_toNat_eq_fields]
  · exact BitVec.toNat_setWidth_of_le (by decide)
  · exact BitVec.toNat_setWidth_of_le (by decide)
  · simp [loen]
  · apply BitVec.eq_of_toNat_eq
    simp only [brmode, BitVec.extractLsb'_toNat, BitVec.toNat_setWidth_of_le (show 3 ≤ 32 by decide)]
  · rw [BitVec.toNat_setWidth_of_le (by decide)]
    exact s.cfg.extctl.isLt

/-- Settles O54: each number's register is read by `exec_cfgr_read`, and none of the four can be written. -/
theorem identificationRegistersReadTheirConstants : Obligations.IdentificationRegistersReadTheirConstants := by
  intro s hp
  refine ⟨exec_cfgr_read (regOf_eq_some_iff.2 ⟨rfl, rfl⟩) (r := .einfo) rfl,
    exec_cfgr_read (regOf_eq_some_iff.2 ⟨rfl, rfl⟩) (r := .frame) rfl,
    exec_cfgr_read (regOf_eq_some_iff.2 ⟨rfl, rfl⟩) (r := .params)
      (congrArg some (paramsWord_eq_ofNat hp)),
    exec_cfgr_read (regOf_eq_some_iff.2 ⟨rfl, rfl⟩) (r := .ident) rfl, fun n v hlo hhi => ?_⟩
  obtain ⟨r, hn, hpres⟩ := exists_reg_of_mem (p := s.params) (n := n.toNat) [.einfo, .frame, .params, .ident]
    (by simp [Reg.number]; omega) (by simp [Reg.present])
  rw [exec_cfgw_readOnly (regOf_eq_some_iff.2 ⟨hn, hpres⟩) (writeReg_eq_none_iff.2 (hn ▸ hlo)),
    ← encode_cfgw_cmd n v]
  rfl

/-- Settles O13: the reset values are written in `State.reset`; the instance view is empty because no instance
exists. -/
theorem resetStateHoldsTheStatedValues : Obligations.ResetStateHoldsTheStatedValues := by
  refine ⟨rfl, rfl, rfl, rfl, rfl, rfl, rfl, rfl, rfl, rfl, rfl, rfl, rfl, laneOffset_reset, fun r hr => ?_,
    rfl, rfl⟩
  rw [← Option.isNone_iff_eq_none, ← Option.isSome_eq_false_iff, readReg_isSome_of_ge State.reset r hr]
  rfl

end Sys2Proof.Machine
end

section
/-! PROOFS. What a presented command can do, said once: the word of a decoded command (30_encoding.md R80 to R83),
the effect of a command that does not fault, and the fault of one that does (60_exceptions.md R170, R172). -/

namespace Sys2Proof

/-! ### The word of a decoded command -/

theorem decodeFormatN_eq_ok {w : CmdWord} {i j : Instr} :
    decodeFormatN w i = .ok j ↔ w.extractLsb' 0 12 = 0#12 ∧ i = j := by
  unfold decodeFormatN
  split <;> simp_all

theorem decodeFormatC_eq_ok {w : CmdWord} {mk : Channel → Instr} {j : Instr} :
    decodeFormatC w mk = .ok j ↔
      w.extractLsb' 2 6 = 0#6 ∧ ∃ ch, Channel.ofBits (w.extractLsb' 0 2) = some ch ∧ mk ch = j := by
  unfold decodeFormatC
  split
  · split <;> simp_all
  · simp_all

theorem decodeFormatC0_eq_ok {w : CmdWord} {mk : Channel → Instr} {j : Instr} :
    decodeFormatC0 w mk = .ok j ↔ w.extractLsb' 8 4 = 0#4 ∧
      w.extractLsb' 2 6 = 0#6 ∧ ∃ ch, Channel.ofBits (w.extractLsb' 0 2) = some ch ∧ mk ch = j := by
  unfold decodeFormatC0
  split
  · rw [decodeFormatC_eq_ok]
    simp_all
  · simp_all

theorem decodeFormatR_eq_ok {w : CmdWord} {i j : Instr} :
    decodeFormatR w i = .ok j ↔ w.extractLsb' 8 4 = 0#4 ∧ i = j := by
  unfold decodeFormatR
  split <;> simp_all

theorem Channel.bits_of_ofBits {b : BitVec 2} {ch : Channel} (h : Channel.ofBits b = some ch) :
    ch.bits = b := by
  revert b ch
  decide

theorem wordN_of_fields {w : CmdWord} (op : BitVec 4) (hop : (w.extractLsb' 12 4).toNat = op.toNat)
    (hz : w.extractLsb' 0 12 = 0#12) : op ++ 0#12 = w := by
  rw [← BitVec.eq_of_toNat_eq hop, ← hz,
    BitVec.extractLsb'_append_extractLsb'_eq_extractLsb' (start₁ := 0) (start₂ := 12) rfl]
  exact BitVec.extractLsb'_eq_self

theorem wordC_of_fields {w : CmdWord} {ch : Channel} (op : BitVec 4)
    (hop : (w.extractLsb' 12 4).toNat = op.toNat) (hz : w.extractLsb' 2 6 = 0#6)
    (hch : Channel.ofBits (w.extractLsb' 0 2) = some ch) : wordC op (w.extractLsb' 8 4) ch = w := by
  rw [wordC, Channel.bits_of_ofBits hch, ← BitVec.eq_of_toNat_eq hop, ← hz,
    BitVec.extractLsb'_append_extractLsb'_eq_extractLsb' (start₁ := 8) (start₂ := 12) rfl,
    BitVec.extractLsb'_append_extractLsb'_eq_extractLsb' (start₁ := 2) (start₂ := 8) rfl,
    BitVec.extractLsb'_append_extractLsb'_eq_extractLsb' (start₁ := 0) (start₂ := 2) rfl]
  exact BitVec.extractLsb'_eq_self

/-- The commands of format C without a lane: the lane field is 0 too. -/
theorem wordC_of_fields_zeroLane {w : CmdWord} {ch : Channel} (op : BitVec 4)
    (hop : (w.extractLsb' 12 4).toNat = op.toNat) (hl : w.extractLsb' 8 4 = 0#4)
    (hz : w.extractLsb' 2 6 = 0#6) (hch : Channel.ofBits (w.extractLsb' 0 2) = some ch) :
    wordC op 0#4 ch = w := by
  rw [← hl]
  exact wordC_of_fields op hop hz hch

theorem wordR_of_fields {w : CmdWord} (op : BitVec 4) (hop : (w.extractLsb' 12 4).toNat = op.toNat)
    (hz : w.extractLsb' 8 4 = 0#4) : wordR op (w.extractLsb' 0 8) = w := by
  rw [wordR, ← BitVec.eq_of_toNat_eq hop, ← hz,
    BitVec.extractLsb'_append_extractLsb'_eq_extractLsb' (start₁ := 8) (start₂ := 12) rfl,
    BitVec.extractLsb'_append_extractLsb'_eq_extractLsb' (start₁ := 0) (start₂ := 8) rfl]
  exact BitVec.extractLsb'_eq_self

/-- The word presented is the word its instruction encodes to (log 6). -/
theorem encode_cmd_of_decode {c : Command} {i : Instr} (h : decode c = .ok i) : (encode i).cmd = c.cmd := by
  unfold decode at h
  split at h
  case h_1 hop => obtain ⟨hz, rfl⟩ := decodeFormatN_eq_ok.1 h; exact wordN_of_fields 1#4 hop hz
  case h_2 hop => obtain ⟨hz, rfl⟩ := decodeFormatN_eq_ok.1 h; exact wordN_of_fields 2#4 hop hz
  case h_3 hop =>
    obtain ⟨hz, ch, hch, rfl⟩ := decodeFormatC_eq_ok.1 h
    exact wordC_of_fields 3#4 hop hz hch
  case h_4 hop => obtain ⟨hz, rfl⟩ := decodeFormatN_eq_ok.1 h; exact wordN_of_fields 4#4 hop hz
  case h_5 hop => obtain ⟨hz, rfl⟩ := decodeFormatN_eq_ok.1 h; exact wordN_of_fields 5#4 hop hz
  case h_6 hop =>
    obtain ⟨hl, hz, ch, hch, rfl⟩ := decodeFormatC0_eq_ok.1 h
    exact wordC_of_fields_zeroLane 6#4 hop hl hz hch
  case h_7 hop =>
    obtain ⟨hl, hz, ch, hch, rfl⟩ := decodeFormatC0_eq_ok.1 h
    exact wordC_of_fields_zeroLane 7#4 hop hl hz hch
  case h_8 hop =>
    obtain ⟨hl, hz, ch, hch, rfl⟩ := decodeFormatC0_eq_ok.1 h
    exact wordC_of_fields_zeroLane 8#4 hop hl hz hch
  case h_9 hop => obtain ⟨hz, rfl⟩ := decodeFormatR_eq_ok.1 h; exact wordR_of_fields 9#4 hop hz
  case h_10 hop => obtain ⟨hz, rfl⟩ := decodeFormatR_eq_ok.1 h; exact wordR_of_fields 10#4 hop hz
  case h_11 => cases h

/-- `CFGW` writes the argument word presented with it (R80). -/
theorem cfgw_value_of_decode {c : Command} {reg : BitVec 8} {v : Word} (h : decode c = .ok (.cfgw reg v)) :
    v = c.arg := by
  unfold decode at h
  split at h <;>
    simp_all [decodeFormatN_eq_ok, decodeFormatC_eq_ok, decodeFormatC0_eq_ok, decodeFormatR_eq_ok]

end Sys2Proof

namespace Sys2Proof.Machine

/-! ### A command that answers without a fault -/

/-- The commands that write no register: they only answer, and perhaps read a byte. -/
def readsOnly : Instr → Bool
  | .has _ => true
  | .load _ _ => true
  | .getsc _ => true
  | .loadlo _ => true
  | .loadbr _ => true
  | .cfgr _ => true
  | .init => false
  | .adv => false
  | .step => false
  | .cfgw _ _ => false

/-- What a command that does not fault does to the state `s`, apart from its answer. -/
inductive Effect (s : State) : Instr → State → Prop where
  | init (h : initCheck s = none) :
      Effect s .init { s with frame := initFrame s, inst := some (initInst s) }
  | adv {x : Inst} (hx : s.inst = some x) (hr : x.rem ≠ 0#16) :
      Effect s .adv { s with inst := some (advInst s.params x) }
  | step {x : Inst} (hx : s.inst = some x) :
      Effect s .step { s with inst := some (stepInst x) }
  | cfgw {reg : BitVec 8} {v : Word} {r : Reg} {u : State} (hr : regOf s.params reg = some r)
      (hw : writeReg s r v = some u) : Effect s (.cfgw reg v) u
  | read {i : Instr} (hi : readsOnly i = true) : Effect s i s

/-- A register write leaves the parameters and an existing instance alone (43_config.md R141, R38). -/
theorem writeReg_frame {s t : State} {r : Reg} {v : Word} (h : writeReg s r v = some t) :
    t.params = s.params ∧ t.inst = s.inst := by
  rcases writeReg_some h with ⟨_, rfl⟩ | ⟨_, c, _, rfl⟩
  · split <;> exact ⟨rfl, rfl⟩
  · exact ⟨rfl, rfl⟩

theorem Effect.params_eq {s u : State} {i : Instr} (he : Effect s i u) : u.params = s.params := by
  cases he with
  | cfgw _ hw => exact (writeReg_frame hw).1
  | _ => rfl

/-- The answer of a command that does not fault: its value, and the address it read, if it read one. -/
def answered (v : Word) (a : Option Addr) (s : State) : State :=
  { s with rsp := some ⟨v, false⟩, lastRead := a }

section Answered

variable (v : Word) (a : Option Addr) (s : State)

@[simp] theorem answered_params : (answered v a s).params = s.params := rfl
@[simp] theorem answered_inst : (answered v a s).inst = s.inst := rfl
@[simp] theorem answered_err : (answered v a s).err = s.err := rfl
@[simp] theorem answered_cause : (answered v a s).cause = s.cause := rfl
@[simp] theorem answered_einfo : (answered v a s).einfo = s.einfo := rfl
@[simp] theorem rspErr_answered : rspErr (answered v a s) = false := rfl
@[simp] theorem rspErr_raise (x : Cause) (w : CmdWord) : rspErr (raise x w s) = true := rfl

end Answered

/-! ### The first failed check -/

/-- The checks of `INIT` are the two conditions of R172 that are `INIT`'s own. -/
theorem firstCause_init (s : State) : firstCause .init s = initCheck s := by
  cases ho : orderLegal s.cfg.order <;>
    cases he : s.params.ext && decide (brmode s.cfg.extctl = 3#2) <;>
    simp [firstCause, faultConditions, Instr.wellFormed, badRegister, needsInstance, needsPixel, planeOff,
      List.find?, initCheck, ho, he]

theorem firstCause_of_illegal {i : Instr} {s : State} (h : i.wellFormed s.params = false) :
    firstCause i s = some .illegalCommand := by
  simp [firstCause, faultConditions, h]

theorem firstCause_of_badRegister {i : Instr} {s : State} (hw : i.wellFormed s.params = true)
    (h : badRegister s.params i = true) : firstCause i s = some .illegalRegister := by
  simp [firstCause, faultConditions, hw, h]

theorem firstCause_of_idle {i : Instr} {s : State} (hw : i.wellFormed s.params = true)
    (hb : badRegister s.params i = false) (hi : needsInstance i = true) (h : s.inst = none) :
    firstCause i s = some .noInstance := by
  have hne : i ≠ .init := by rintro rfl; cases hi
  simp [firstCause, faultConditions, hw, hb, hne, hi, h]

theorem firstCause_of_planeOff {i : Instr} {s : State} {x : Inst} (hw : i.wellFormed s.params = true)
    (hb : badRegister s.params i = false) (hx : s.inst = some x) (h : planeOff x i = true) :
    firstCause i s = some .planeDisabled := by
  have hne : i ≠ .init := by rintro rfl; cases h
  simp [firstCause, faultConditions, hw, hb, hne, hx, h]

theorem firstCause_of_noPixel {i : Instr} {s : State} {x : Inst} (hw : i.wellFormed s.params = true)
    (hb : badRegister s.params i = false) (hi : needsPixel i = true) (hx : s.inst = some x)
    (hp : planeOff x i = false) (h : x.rem = 0#16) : firstCause i s = some .underrun := by
  have hne : i ≠ .init := by rintro rfl; cases hi
  simp [firstCause, faultConditions, hw, hb, hne, hx, hp, hi, h]

/-- `CFGW` faults exactly on a number that is unmapped or read-only (R162). -/
theorem badRegister_of_cfgw_fault {s : State} {reg : BitVec 8} {v : Word} (hp : s.params.wf = true)
    (h : regOf s.params reg = none ∨ ∃ r, regOf s.params reg = some r ∧ writeReg s r v = none) :
    badRegister s.params (.cfgw reg v) = true := by
  rcases h with h | ⟨r, hr, hw⟩
  · simp [badRegister, (regOf_eq_none_iff hp).1 h]
  · have hge := writeReg_eq_none_iff.1 hw
    rw [(regOf_eq_some_iff.1 hr).1] at hge
    simp [badRegister, hge]

/-- A register that holds no value is one of the instance view, and no instance exists (R21, R41). -/
theorem instanceView_of_readReg_none {s : State} {r : Reg} (h : readReg s r = none) :
    0x30 ≤ r.number ∧ s.inst = none := by
  have hge : 0x30 ≤ r.number := by
    by_contra hlt
    simpa [h] using readReg_isSome_of_lt s r (by omega)
  refine ⟨hge, ?_⟩
  have hsome := readReg_isSome_of_ge s r hge
  rw [h] at hsome
  exact Option.isNone_iff_eq_none.1 (Option.isSome_eq_false_iff.1 hsome.symm)

/-! ### Everything a command can do -/

/-- A command answers by fault entry with the first condition of R172 that holds, or it has its effect and
answers without a fault. -/
theorem exec_next {i : Instr} {s t : State} (h : exec i s = .next t) :
    (∃ x, t = raise x (encode i).cmd s ∧ (s.params.wf = true → firstCause i s = some x)) ∨
    (∃ u v a, Effect s i u ∧ t = answered v a u) := by
  cases i with
  | init =>
    rcases execInit_next h with ⟨x, hx, rfl⟩ | ⟨hx, rfl⟩
    · exact .inl ⟨x, rfl, fun _ => firstCause_init s ▸ hx⟩
    · exact .inr ⟨_, _, _, .init hx, rfl⟩
  | has n =>
    rcases execHas_next h with ⟨hi, rfl⟩ | ⟨x, hx, rfl⟩
    · exact .inl ⟨_, rfl, fun _ => firstCause_of_idle rfl rfl rfl hi⟩
    · exact .inr ⟨_, _, _, .read rfl, rfl⟩
  | load ch lane =>
    rcases execLoad_next h with ⟨hl, rfl⟩ | ⟨hl, hi, rfl⟩ | ⟨x, hl, hx, hr, rfl⟩ | ⟨x, b, hl, hx, hr, hm, rfl⟩
    · exact .inl ⟨_, rfl, fun _ => firstCause_of_illegal (decide_eq_false (Nat.not_lt.2 hl))⟩
    · exact .inl ⟨_, rfl, fun _ => firstCause_of_idle (decide_eq_true hl) rfl rfl hi⟩
    · exact .inl ⟨_, rfl, fun _ => firstCause_of_noPixel (decide_eq_true hl) rfl rfl hx rfl hr⟩
    · exact .inr ⟨_, _, _, .read rfl, rfl⟩
  | adv =>
    rcases execAdv_next h with ⟨hi, rfl⟩ | ⟨x, hx, hr, rfl⟩ | ⟨x, hx, hr, rfl⟩
    · exact .inl ⟨_, rfl, fun _ => firstCause_of_idle rfl rfl rfl hi⟩
    · exact .inl ⟨_, rfl, fun _ => firstCause_of_noPixel rfl rfl rfl hx rfl hr⟩
    · exact .inr ⟨_, _, _, .adv hx hr, rfl⟩
  | step =>
    rcases execStep_next h with ⟨hi, rfl⟩ | ⟨x, hx, rfl⟩
    · exact .inl ⟨_, rfl, fun _ => firstCause_of_idle rfl rfl rfl hi⟩
    · exact .inr ⟨_, _, _, .step hx, rfl⟩
  | getsc ch =>
    rcases execGetsc_next h with ⟨hi, rfl⟩ | ⟨x, hx, rfl⟩
    · exact .inl ⟨_, rfl, fun _ => firstCause_of_idle rfl rfl rfl hi⟩
    · exact .inr ⟨_, _, _, .read rfl, rfl⟩
  | loadlo ch =>
    rcases execLoadlo_next h with ⟨c, rfl, hc⟩ | ⟨x, b, he, hx, hl, hr, hm, rfl⟩
    · refine .inl ⟨c, rfl, fun _ => ?_⟩
      rcases hc with ⟨rfl, he⟩ | ⟨he, ⟨rfl, hi⟩ | ⟨x, hx, ⟨rfl, hp⟩ | ⟨rfl, hp, hr⟩⟩⟩
      · exact firstCause_of_illegal he
      · exact firstCause_of_idle he rfl rfl hi
      · exact firstCause_of_planeOff he rfl hx (by simp [planeOff, hp])
      · exact firstCause_of_noPixel he rfl rfl hx (by simp [planeOff, hp]) hr
    · exact .inr ⟨_, _, _, .read rfl, rfl⟩
  | loadbr ch =>
    rcases execLoadbr_next h with ⟨c, rfl, hc⟩ | ⟨x, b, he, hx, hl, hr, hm, rfl⟩
    · refine .inl ⟨c, rfl, fun _ => ?_⟩
      rcases hc with ⟨rfl, he⟩ | ⟨he, ⟨rfl, hi⟩ | ⟨x, hx, ⟨rfl, hp⟩ | ⟨rfl, hp, hr⟩⟩⟩
      · exact firstCause_of_illegal he
      · exact firstCause_of_idle he rfl rfl hi
      · exact firstCause_of_planeOff he rfl hx (decide_eq_true hp)
      · exact firstCause_of_noPixel he rfl rfl hx (decide_eq_false hp) hr
    · exact .inr ⟨_, _, _, .read rfl, rfl⟩
  | cfgw reg v =>
    rcases execCfgw_next h with ⟨rfl, hbad⟩ | ⟨r, u, hr, hw, rfl⟩
    · exact .inl ⟨_, rfl, fun hp => firstCause_of_badRegister rfl (badRegister_of_cfgw_fault hp hbad)⟩
    · exact .inr ⟨_, _, _, .cfgw hr hw, rfl⟩
  | cfgr reg =>
    rcases execCfgr_next h with ⟨hr, rfl⟩ | ⟨r, hr, hv, rfl⟩ | ⟨r, v, hr, hv, rfl⟩
    · refine .inl ⟨_, rfl, fun hp => firstCause_of_badRegister rfl ?_⟩
      simp [badRegister, (regOf_eq_none_iff hp).1 hr]
    · obtain ⟨hge, hi⟩ := instanceView_of_readReg_none hv
      refine .inl ⟨_, rfl, fun hp => firstCause_of_idle rfl ?_ ?_ hi⟩
      · simp [badRegister, ← regOf_isSome_eq_mappedNumber hp, hr]
      · simpa [needsInstance, (regOf_eq_some_iff.1 hr).1] using hge
    · exact .inr ⟨_, _, _, .read rfl, rfl⟩

/-- A command presented, over all words: fault entry with the word presented, or the effect of its
instruction. -/
theorem step_command_next {s t : State} {c : Command} {rest : List Input} (hs : s.inputs = .command c :: rest)
    (h : step s = .next t) :
    (∃ x, t = raise x c.cmd { s with inputs := rest } ∧
      (s.params.wf = true → commandCause c s = some x)) ∨
    (∃ i u v a, decode c = .ok i ∧ Effect { s with inputs := rest } i u ∧ t = answered v a u) := by
  cases hc : decode c with
  | error e =>
    simp only [step, hs, hc, Host.Outcome.next.injEq] at h
    exact .inl ⟨_, h.symm, fun _ => by simp only [commandCause, hc]⟩
  | ok i =>
    rw [step_of_decode_ok hs hc] at h
    rcases exec_next h with ⟨x, rfl, hx⟩ | ⟨u, v, a, hu, rfl⟩
    · refine .inl ⟨x, by rw [encode_cmd_of_decode hc], fun hp => ?_⟩
      simp only [commandCause, hc]
      exact hx hp
    · exact .inr ⟨i, u, v, a, rfl, hu, rfl⟩

theorem step_reset {s : State} {rest : List Input} (hs : s.inputs = .reset :: rest) :
    step s = .next (resetBlock { s with inputs := rest }) := by
  simp only [step, hs]

end Sys2Proof.Machine
end

section
/-! PROOFS. The invariant of the machine (`stateInv`): what each effect of a command and each other step does to its
parts, with the statements that it holds after reset and is kept by every step settled. -/

namespace Sys2Proof.Machine

/-! ### The parts of the invariant -/

theorem ditherWf_iff {x : Inst} : ditherWf x = true ↔ ∀ c, x.d.get c ≤ x.e.get c := by
  simp only [ditherWf, Bool.and_eq_true, decide_eq_true_eq]
  constructor
  · rintro ⟨h0, h1, h2⟩ (_ | _ | _)
    · exact h0
    · exact h1
    · exact h2
  · exact fun h => ⟨h .red, h .green, h .blue⟩

/-- The parts of `instWf`: addresses that fit, a legal order, R32 (c), a mode of R132, and nothing of an absent
option. -/
theorem instWf_iff {p : Params} {x : Inst} :
    instWf p x = true ↔ addrFits p x.ptr = true ∧ addrFits p x.loptr = true ∧
      (∀ i, addrFits p (x.brptr.get i) = true) ∧ lanesFit p x.off = true ∧ orderLegal x.ord = true ∧
      (∀ c, x.d.get c ≤ x.e.get c) ∧ x.xbr ≠ 3#2 ∧
      (p.ext = false →
        x.xlo = false ∧ x.xbr = 0#2 ∧ x.loptr = 0#32 ∧ x.brptr = ⟨0#32, 0#32, 0#32⟩) := by
  cases hp : p.ext <;> simp [instWf, hp, tripletFits_iff, ditherWf_iff, and_assoc]

theorem stateInv_iff {s : State} :
    stateInv s = true ↔ s.params.wf = true ∧ cfgWf s.params s.cfg = true ∧ faultWf s = true ∧
      memWf s = true ∧ ∀ x, s.inst = some x → instWf s.params x = true := by
  cases hi : s.inst <;> simp [stateInv, hi, and_assoc]

theorem code_bounds (x : Cause) : 1#4 ≤ x.code ∧ x.code ≤ 7#4 := by
  cases x <;> decide

theorem faultWf_raise {x : Cause} {w : CmdWord} {s : State} (h : faultWf s = true) :
    faultWf (raise x w s) = true := by
  cases he : s.err <;> simp_all [faultWf, code_bounds]

theorem faultWf_clearErr (s : State) : faultWf (clearErr s) = true := rfl

/-! ### Construction and the moves of an instance -/

/-- `INIT` checks the order and the mode that it latches (R101). -/
theorem initCheck_eq_none {s : State} :
    initCheck s = none ↔ orderLegal s.cfg.order = true ∧ (s.params.ext = true → brmode s.cfg.extctl ≠ 3#2) := by
  unfold initCheck
  split <;> simp_all

/-- R103: the initial offset never exceeds the increment. -/
theorem ditherOffset_le (f : Bool) (q e : Byte) : ditherOffset f q e ≤ e := by
  rw [BitVec.le_def, ditherOffset_toNat]
  exact Nat.le_trans (Nat.sub_le _ 1) (scale8_le f q e)

theorem initOffset_le_initIncrement (s : State) (c : Channel) : initOffset s c ≤ initIncrement s c := by
  unfold initOffset
  split
  · exact ditherOffset_le _ _ _
  · exact BitVec.le_def.2 (Nat.zero_le _)

theorem instWf_initInst {s : State} (hc : cfgWf s.params s.cfg = true) (h : initCheck s = none) :
    instWf s.params (initInst s) = true := by
  obtain ⟨hbase, hlobase, hbrbase, hloff, _⟩ := cfgWf_iff.1 hc
  obtain ⟨horder, hmode⟩ := initCheck_eq_none.1 h
  refine instWf_iff.2 ⟨hbase, ?_, ?_, hloff, horder, fun c => ?_, ?_, fun he => ?_⟩
  · unfold initInst
    split
    · exact hlobase
    · exact addrFits_zero _
  · intro i
    unfold initInst
    split
    · exact hbrbase i
    · cases i <;> exact addrFits_zero _
  · simpa [initInst] using initOffset_le_initIncrement s c
  · unfold initInst
    split
    · next he => exact hmode he
    · exact show 0#2 ≠ 3#2 by decide
  · simp [initInst, he]

theorem instWf_advInst {p : Params} {x : Inst} (h : instWf p x = true) : instWf p (advInst p x) = true := by
  obtain ⟨_, hloptr, hbrptr, hoff, hord, hd, hxbr, hext⟩ := instWf_iff.1 h
  refine instWf_iff.2 ⟨addrFits_addrOf p _, ?_, ?_, hoff, hord, hd, hxbr, fun he => ?_⟩
  · unfold advInst
    split
    · exact addrFits_addrOf p _
    · exact hloptr
  · intro i
    unfold advInst
    split
    · simpa using addrFits_addrOf p _
    · exact hbrptr i
  · simpa [advInst, he] using hext he

/-- R32 (c) is kept because `E - D` does not wrap when `D <= E`. -/
theorem instWf_stepInst {p : Params} {x : Inst} (h : instWf p x = true) : instWf p (stepInst x) = true := by
  obtain ⟨hptr, hloptr, hbrptr, hoff, hord, hd, hxbr, hext⟩ := instWf_iff.1 h
  refine instWf_iff.2 ⟨hptr, hloptr, hbrptr, hoff, hord, fun c => ?_, hxbr, hext⟩
  have hle := BitVec.le_def.1 (hd c)
  simp only [stepInst, Triplet.get_tabulate, BitVec.le_def, BitVec.toNat_sub_of_le (hd c)]
  omega

/-! ### Register writes -/

theorem Triplet.get_set {α : Type} (t : Triplet α) (i j : Channel) (v : α) :
    (t.set i v).get j = if i = j then v else t.get j := by
  cases i <;> cases j <;> rfl

theorem laneOffset_set (off : Vector Addr 16) (l k : BitVec 4) (a : Addr) :
    laneOffset (off.set l.toNat a l.isLt) k = if l = k then a else laneOffset off k := by
  simp only [laneOffset, Vector.getElem_set, BitVec.toNat_inj]

/-- A write to a lane the block has keeps the offsets of the absent lanes 0. -/
theorem lanesFit_set {p : Params} {off : Vector Addr 16} {l : BitVec 4} {a : Addr} (h : lanesFit p off = true)
    (hl : l.toNat < p.nlanes) (ha : addrFits p a = true) :
    lanesFit p (off.set l.toNat a l.isLt) = true := by
  refine lanesFit_iff.2 fun k => ?_
  rw [laneOffset_set]
  split
  · next hk => exact ⟨ha, .inl (hk ▸ hl)⟩
  · exact lanesFit_iff.1 h k

theorem cfgWf_writeCfg {p : Params} {c d : ConfigRegs} {v : Word} {r : Reg} (h : cfgWf p c = true)
    (hr : r.present p = true) (hw : writeCfg p c v r = some d) : cfgWf p d = true := by
  have hfits : addrFits p (addrOf p.aw v.toNat) = true := addrFits_addrOf p _
  obtain ⟨hbase, hlobase, hbrbase, hloff, hext⟩ := cfgWf_iff.1 h
  have hpresent : r.present p = p.ext → p.ext = false → False := fun heq he => by simp [heq, he] at hr
  cases r <;> cases hw
  case base => exact cfgWf_iff.2 ⟨hfits, hlobase, hbrbase, hloff, hext⟩
  case npix | scale | dmode | order => exact h
  case extctl => exact cfgWf_iff.2 ⟨hbase, hlobase, hbrbase, hloff, fun he => (hpresent rfl he).elim⟩
  case lobase => exact cfgWf_iff.2 ⟨hbase, hfits, hbrbase, hloff, fun he => (hpresent rfl he).elim⟩
  case brbase i =>
    refine cfgWf_iff.2 ⟨hbase, hlobase, fun j => ?_, hloff, fun he => (hpresent rfl he).elim⟩
    rw [Triplet.get_set]
    split
    · exact hfits
    · exact hbrbase j
  case loff l =>
    exact cfgWf_iff.2 ⟨hbase, hlobase, hbrbase, lanesFit_set hloff (of_decide_eq_true hr) hfits, hext⟩

/-! ### Every step -/

theorem stateInv_raise {x : Cause} {w : CmdWord} {s : State} (h : stateInv s = true) :
    stateInv (raise x w s) = true := by
  obtain ⟨hp, hc, hf, hm, _⟩ := stateInv_iff.1 h
  exact stateInv_iff.2 ⟨hp, hc, faultWf_raise hf, hm, fun _ hx => by cases hx⟩

theorem stateInv_answered (v : Word) (a : Option Addr) (s : State) :
    stateInv (answered v a s) = stateInv s := rfl

theorem stateInv_inputs (s : State) (inputs : List Input) :
    stateInv { s with inputs := inputs } = stateInv s := rfl

theorem instWf_of_stateInv {s : State} {x : Inst} (h : stateInv s = true) (hx : s.inst = some x) :
    instWf s.params x = true := by
  obtain ⟨_, _, _, _, hi⟩ := stateInv_iff.1 h
  exact hi x hx

/-- The instance and the frame counter may be replaced by others, if the new instance is well formed. -/
theorem stateInv_setInst {s : State} {x : Inst} (f : Byte) (h : stateInv s = true)
    (hx : instWf s.params x = true) : stateInv { s with frame := f, inst := some x } = true := by
  obtain ⟨hp, hc, hf, hm, _⟩ := stateInv_iff.1 h
  refine stateInv_iff.2 ⟨hp, hc, hf, hm, ?_⟩
  rintro _ ⟨⟩
  exact hx

theorem stateInv_writeReg {s t : State} {r : Reg} {v : Word} (h : stateInv s = true)
    (hr : r.present s.params = true) (hw : writeReg s r v = some t) : stateInv t = true := by
  obtain ⟨hp, hc, hf, hm, hi⟩ := stateInv_iff.1 h
  rcases writeReg_some hw with ⟨_, rfl⟩ | ⟨_, c, hcfg, rfl⟩
  · split
    · exact stateInv_iff.2 ⟨hp, hc, faultWf_clearErr s, hm, hi⟩
    · exact h
  · exact stateInv_iff.2 ⟨hp, cfgWf_writeCfg hc hr hcfg, hf, hm, hi⟩

theorem Effect.keeps_stateInv {s u : State} {i : Instr} (he : Effect s i u) (h : stateInv s = true) :
    stateInv u = true := by
  cases he with
  | init hcheck =>
    obtain ⟨_, hc, _⟩ := stateInv_iff.1 h
    exact stateInv_setInst _ h (instWf_initInst hc hcheck)
  | adv hx _ => exact stateInv_setInst s.frame h (instWf_advInst (instWf_of_stateInv h hx))
  | step hx => exact stateInv_setInst s.frame h (instWf_stepInst (instWf_of_stateInv h hx))
  | cfgw hr hw => exact stateInv_writeReg h (regOf_some hr).2 hw
  | read _ => exact h

theorem exec_keeps_stateInv {i : Instr} {s t : State} (h : stateInv s = true) (ht : exec i s = .next t) :
    stateInv t = true := by
  rcases exec_next ht with ⟨x, rfl, _⟩ | ⟨u, v, a, hu, rfl⟩
  · exact stateInv_raise h
  · rw [stateInv_answered]
    exact hu.keeps_stateInv h

theorem stateInv_resetBlock {s : State} (h : stateInv s = true) : stateInv (resetBlock s) = true := by
  obtain ⟨hp, _, _, hm, _⟩ := stateInv_iff.1 h
  exact stateInv_iff.2 ⟨hp, cfgWf_reset _, rfl, hm, fun _ hx => by cases hx⟩

theorem stateInv_hostStore {s t : State} {a : Addr} {b : Byte} (h : stateInv s = true)
    (ht : hostStore a b s = .next t) : stateInv t = true := by
  unfold hostStore at ht
  split at ht
  · next ha =>
    cases ht
    obtain ⟨hp, hc, hf, hm, hi⟩ := stateInv_iff.1 h
    obtain ⟨hwf, hbelow⟩ := Bool.and_eq_true_iff.1 hm
    refine stateInv_iff.2 ⟨hp, hc, hf, Bool.and_eq_true_iff.2 ⟨?_, ?_⟩, hi⟩
    · exact memoryWf_memoryWrite _ _ b hwf
    · exact memoryBelow_memoryWrite _ _ _ b ha hbelow
  · cases ht

/-- Settles O15: the reset values meet each part of the invariant, whatever the parameters. -/
theorem resetStateSatisfiesTheInvariant : Obligations.ResetStateSatisfiesTheInvariant :=
  fun p hp => stateInv_iff.2 ⟨hp, cfgWf_reset p, rfl, rfl, fun _ hx => by cases hx⟩

/-- Settles O16: by the kind of input, each with its own lemma; a command is fault entry or an effect. -/
theorem everyStepKeepsTheInvariant : Obligations.EveryStepKeepsTheInvariant := by
  intro s t h ht
  unfold step at ht
  split at ht
  · cases ht
    exact h
  · split at ht
    · exact exec_keeps_stateInv ((stateInv_inputs s _).trans h) ht
    · cases ht
      exact stateInv_raise ((stateInv_inputs s _).trans h)
  · cases ht
    exact stateInv_resetBlock ((stateInv_inputs s _).trans h)
  · exact stateInv_hostStore ((stateInv_inputs s _).trans h) ht

end Sys2Proof.Machine
end

section
/-! PROOFS. The fault record and the phase over every presented command (10_state.md R20, R23), and the frame
counter's part in construction (R22), with the statements about them settled. -/

namespace Sys2Proof.Machine

/-! ### The fault record -/

/-- The only effect on the fault record is that of `CFGW STATUS` with bit 0 set, which clears it (R142). -/
theorem Effect.faultRecord {s u : State} {i : Instr} (he : Effect s i u) :
    (u.err = s.err ∧ u.cause = s.cause ∧ u.einfo = s.einfo) ∨
    (∃ v, i = .cfgw 0x20#8 v ∧ v.getLsbD 0 = true ∧ u = clearErr s) := by
  cases he with
  | @cfgw reg v r u hr hw =>
    rcases writeReg_some hw with ⟨rfl, rfl⟩ | ⟨_, c, _, rfl⟩
    · have hreg : reg = 0x20#8 := BitVec.eq_of_toNat_eq (regOf_some hr).1.symm
      split
      · next hv => exact .inr ⟨v, by rw [hreg], hv, rfl⟩
      · exact .inl ⟨rfl, rfl, rfl⟩
    · exact .inl ⟨rfl, rfl, rfl⟩
  | _ => exact .inl ⟨rfl, rfl, rfl⟩

theorem exec_cfgw_status_clear {s : State} {v : Word} (hv : v.getLsbD 0 = true) :
    exec (.cfgw 0x20#8 v) s = .next (respond 0#32 (clearErr s)) :=
  exec_cfgw_write (r := .status) (regOf_eq_some_iff.2 ⟨rfl, rfl⟩) (by simp [writeReg, hv])

theorem decode_cfgw_status (arg : Word) : decode ⟨0x9020#16, arg⟩ = .ok (.cfgw 0x20#8 arg) := by
  simp [decode, decodeFormatR]

/-- The presented form of `exec_cfgw_status_clear`. -/
theorem step_cfgw_status_clear {s : State} {c : Command} {rest : List Input} (hs : s.inputs = .command c :: rest)
    (hc : c.cmd = 0x9020#16) (hv : c.arg.getLsbD 0 = true) :
    step s = .next (respond 0#32 (clearErr { s with inputs := rest })) := by
  obtain ⟨cmd, arg⟩ := c
  obtain rfl : cmd = 0x9020#16 := hc
  rw [step_of_decode_ok hs (decode_cfgw_status arg), exec_cfgw_status_clear hv]

/-- Settles O23: a command is fault entry, which writes the record only while `ERR = 0`, or an effect, which
leaves the record alone or clears it. -/
theorem faultRecordIsStickyUntilCleared : Obligations.FaultRecordIsStickyUntilCleared := by
  refine ⟨fun s t c rest hp hs ht => ?_, fun s rest hs => ⟨_, step_reset hs, rfl, rfl, rfl⟩⟩
  have hclear : c.cmd = 0x9020#16 → c.arg.getLsbD 0 = true →
      t.err = false ∧ t.cause = 0#4 ∧ t.einfo = 0#16 := fun hc hv => by
    cases (step_cfgw_status_clear hs hc hv).symm.trans ht
    exact ⟨rfl, rfl, rfl⟩
  rcases step_command_next hs ht with ⟨x, rfl, hx⟩ | ⟨i, u, v, a, hi, hu, rfl⟩
  · refine ⟨fun _ h => by simp at h, hclear, fun he _ => by simp [he], fun he _ => ?_, fun _ h => by simp at h,
      fun _ => rfl⟩
    simp [he, hx hp]
  · rcases hu.faultRecord with ⟨herr, hcause, heinfo⟩ | ⟨w, rfl, hw, rfl⟩
    · refine ⟨fun h h' => ?_, hclear, fun _ _ => ⟨hcause, heinfo⟩, fun h h' => ?_,
        fun _ _ h h' => ⟨hcause.trans h, heinfo.trans h'⟩, fun h => by simp at h⟩
      · exact absurd (h.symm.trans (herr.symm.trans h')) (by decide)
      · exact absurd (h.symm.trans (herr.symm.trans h')) (by decide)
    · refine ⟨fun _ _ => ⟨(encode_cmd_of_decode hi).symm, cfgw_value_of_decode hi ▸ hw⟩, hclear,
        fun _ h => by simp at h, fun _ h => by simp at h, fun _ _ _ _ => ⟨rfl, rfl⟩, fun h => by simp at h⟩

/-! ### The phase -/

theorem decode_init (arg : Word) : decode ⟨0x1000#16, arg⟩ = .ok .init := by
  simp [decode, decodeFormatN]

theorem Effect.active_of_init {s u : State} (he : Effect s .init u) : u.inst.isSome = true := by
  cases he with
  | init _ => rfl
  | read h => cases h

/-- Only `INIT` starts an instance, and no effect ends one. -/
theorem Effect.phase_of_ne_init {s u : State} {i : Instr} (he : Effect s i u) (hi : i ≠ .init) :
    u.inst.isSome = s.inst.isSome := by
  cases he with
  | init _ => exact absurd rfl hi
  | adv hx _ => simp [hx]
  | step hx => simp [hx]
  | cfgw _ hw => rw [(writeReg_frame hw).2]
  | read _ => rfl

/-- Settles O24: fault entry destroys the instance, and of the effects only that of `INIT` starts one. -/
theorem phaseChangesOnlyByInitFaultAndReset : Obligations.PhaseChangesOnlyByInitFaultAndReset := by
  refine ⟨fun s t c rest hs ht => ?_, fun s rest hs => ⟨_, step_reset hs, rfl⟩, statusWord_active⟩
  rcases step_command_next hs ht with ⟨x, rfl, _⟩ | ⟨i, u, v, a, hi, hu, rfl⟩
  · exact ⟨fun _ => rfl, fun h => by simp at h, fun h => by simp at h⟩
  · refine ⟨fun h => by simp at h, fun _ hc => ?_, fun _ hc => ?_⟩
    · obtain ⟨cmd, arg⟩ := c
      obtain rfl : cmd = 0x1000#16 := hc
      cases (decode_init arg).symm.trans hi
      exact hu.active_of_init
    · refine hu.phase_of_ne_init ?_
      rintro rfl
      exact hc (encode_cmd_of_decode hi).symm

/-! ### The frame counter -/

/-- Masking to `K` bits is the remainder modulo `2^K`. -/
theorem mask_toNat {k : Nat} (hk : k ≤ 8) (r : Byte) :
    (r &&& BitVec.ofNat 8 (2 ^ k - 1)).toNat = r.toNat % 2 ^ k := by
  have hle : 2 ^ k ≤ 2 ^ 8 := Nat.pow_le_pow_right (by decide) hk
  rw [BitVec.toNat_and, BitVec.toNat_ofNat, Nat.mod_eq_of_lt (by have := Nat.two_pow_pos k; omega),
    Nat.and_two_pow_sub_one_eq_mod]

/-- The phase of a frame counter depends on its low `K` bits only (R102). -/
theorem ditherPhase_congr {k : Nat} (hk : k ≤ 8) {q r : Byte} (h : q.toNat % 2 ^ k = r.toNat % 2 ^ k) :
    ditherPhase k q = ditherPhase k r := by
  have hmask : q &&& BitVec.ofNat 8 (2 ^ k - 1) = r &&& BitVec.ofNat 8 (2 ^ k - 1) :=
    BitVec.eq_of_toNat_eq (by rw [mask_toNat hk, mask_toNat hk, h])
  rw [ditherPhase, ditherPhase, hmask]

/-- Advancing the counter keeps agreement modulo `2^K`, since `2^K` divides 256. -/
theorem frame_succ_mod {k : Nat} (hk : k ≤ 8) {q r : Byte} (h : q.toNat % 2 ^ k = r.toNat % 2 ^ k) :
    (q + 1#8).toNat % 2 ^ k = (r + 1#8).toNat % 2 ^ k := by
  have hdvd : 2 ^ k ∣ 2 ^ 8 := Nat.pow_dvd_pow 2 hk
  rw [BitVec.toNat_add, BitVec.toNat_add, Nat.mod_mod_of_dvd _ hdvd, Nat.mod_mod_of_dvd _ hdvd]
  exact Nat.ModEq.add_right _ h

/-- The instance that `INIT` builds depends on `R` only through the phase after the advance. -/
theorem initInst_frame_congr {s : State} {r : Byte} (hk : s.params.k ≤ 8)
    (h : r.toNat % 2 ^ s.params.k = s.frame.toNat % 2 ^ s.params.k) :
    initInst { s with frame := r } = initInst s := by
  have hoffset : initOffset { s with frame := r } = initOffset s := by
    funext c
    simp only [initOffset, initIncrement, ditherPhase_congr hk (frame_succ_mod hk h)]
  simp only [initInst, hoffset]
  rfl

/-- Settles O31: the checks of `INIT` do not look at `R`, and the instance is `initInst_frame_congr`. -/
theorem onlyTheLowBitsOfTheFrameCounterMatter : Obligations.OnlyTheLowBitsOfTheFrameCounterMatter := by
  intro s r hk h t u ht hu
  have hcheck : initCheck { s with frame := r } = initCheck s := rfl
  rcases execInit_next ht with ⟨x, hx, rfl⟩ | ⟨hx, rfl⟩ <;>
    rcases execInit_next hu with ⟨y, hy, rfl⟩ | ⟨hy, rfl⟩
  · rfl
  · simp [hcheck, hx] at hy
  · simp [hcheck, hx] at hy
  · exact congrArg some (initInst_frame_congr hk h).symm

end Sys2Proof.Machine
end

section
/-! PROOFS. Runs of commands over an instance (10_state.md R32, R38, 41_pull.md R114, R116, R121): how far an
instance has moved, and what the pull commands depend on, with the statements about them settled. -/

namespace Sys2Proof.Machine

/-! ### The dither offsets -/

theorem offsetAfter_succ (n : Nat) (e d : Byte) : offsetAfter n e (e - d) = offsetAfter (n + 1) e d := by
  unfold offsetAfter
  rcases Nat.mod_two_eq_zero_or_one n with hn | hn <;> simp [hn, Nat.add_mod]

/-- `STEP` with an instance, in full (R116). -/
theorem exec_step_of_inst {s : State} {x : Inst} (hx : s.inst = some x) :
    exec .step s = .next (answered 0#32 none { s with inst := some (stepInst x) }) := by
  rw [exec, execStep, onInst_some hx]
  rfl

theorem runInstrs_cons {i : Instr} {is : List Instr} {s u : State} (h : exec i s = .next u) :
    runInstrs (i :: is) s = runInstrs is u := by
  simp only [runInstrs, h]

/-- A run that answers a next state goes through one. -/
theorem runInstrs_cons_next {i : Instr} {is : List Instr} {s t : State} (h : runInstrs (i :: is) s = .next t) :
    ∃ u, exec i s = .next u ∧ runInstrs is u = .next t := by
  cases hu : exec i s with
  | next u => exact ⟨u, rfl, runInstrs_cons hu ▸ h⟩
  | fault f => simp only [runInstrs, hu, reduceCtorEq] at h
  | refused r => simp only [runInstrs, hu, reduceCtorEq] at h

/-- Settles O39: by induction on the number of `STEP`s; each replaces `D` by `E - D`. -/
theorem ditherOffsetsHavePeriodTwo : Obligations.DitherOffsetsHavePeriodTwo := by
  intro n
  induction n with
  | zero => exact fun s x hx => ⟨s, x, rfl, hx, rfl, fun _ => rfl⟩
  | succ n ih =>
    intro s x hx
    obtain ⟨t, y, hrun, hy, hsame, hd⟩ := ih (answered 0#32 none { s with inst := some (stepInst x) }) _ rfl
    refine ⟨t, y, ?_, hy, hsame, fun c => ?_⟩
    · rw [List.replicate_succ, runInstrs_cons (exec_step_of_inst hx), hrun]
    · rw [hd c, ← offsetAfter_succ]
      simp [stepInst]

/-! ### How far an instance has moved -/

/-- `y` is `x` after `advs` executions of `ADV` and `steps` of `STEP`, and of no other command that moves it. -/
structure MovedBy (p : Params) (x y : Inst) (advs steps : Nat) : Prop where
  advs_le : advs ≤ x.rem.toNat
  rem : y.rem.toNat = x.rem.toNat - advs
  ptr : y.ptr = addrOf p.aw (x.ptr.toNat + 3 * advs)
  planes : p.ext = true → y.loptr = addrOf p.aw (x.loptr.toNat + 3 * advs) ∧
    ∀ c, y.brptr.get c = addrOf p.aw ((x.brptr.get c).toNat + advs)
  offsets : ∀ c, y.d.get c = offsetAfter steps (x.e.get c) (x.d.get c)
  latched : y.s = x.s ∧ y.e = x.e ∧ y.ord = x.ord ∧ y.off = x.off ∧ y.xlo = x.xlo ∧ y.xbr = x.xbr

theorem MovedBy.refl {p : Params} {x : Inst} (h : instWf p x = true) : MovedBy p x x 0 0 := by
  obtain ⟨hptr, hloptr, hbrptr, _⟩ := instWf_iff.1 h
  refine ⟨Nat.zero_le _, rfl, (addrOf_self _ _ (addrFits_lt hptr)).symm, fun _ => ⟨?_, fun c => ?_⟩,
    fun _ => rfl, ⟨rfl, rfl, rfl, rfl, rfl, rfl⟩⟩
  · exact (addrOf_self _ _ (addrFits_lt hloptr)).symm
  · exact (addrOf_self _ _ (addrFits_lt (hbrptr c))).symm

/-- An `ADV` before the rest of the way: the sums collapse by `addrOf_addrOf_add`. -/
theorem MovedBy.adv {p : Params} {x y : Inst} {advs steps : Nat} (hr : x.rem ≠ 0#16)
    (h : MovedBy p (advInst p x) y advs steps) : MovedBy p x y (advs + 1) steps := by
  have hpos : x.rem.toNat ≠ 0 := fun h0 => hr (BitVec.eq_of_toNat_eq h0)
  have hrem : (advInst p x).rem.toNat = x.rem.toNat - 1 :=
    BitVec.toNat_sub_of_le (BitVec.le_def.2 (Nat.one_le_iff_ne_zero.2 hpos))
  have hle := h.advs_le
  refine ⟨by omega, by rw [h.rem]; omega, ?_, fun he => ⟨?_, fun c => ?_⟩, h.offsets, h.latched⟩
  · rw [h.ptr, advInst, addrOf_addrOf_add]
    congr 1
    omega
  · rw [(h.planes he).1]
    simp only [advInst, he, if_true, addrOf_addrOf_add]
    congr 1
    omega
  · rw [(h.planes he).2 c]
    simp only [advInst, he, if_true, Triplet.get_tabulate, addrOf_addrOf_add]
    congr 1
    omega

theorem MovedBy.step {p : Params} {x y : Inst} {advs steps : Nat}
    (h : MovedBy p (stepInst x) y advs steps) : MovedBy p x y advs (steps + 1) := by
  refine ⟨h.advs_le, h.rem, h.ptr, h.planes, fun c => ?_, h.latched⟩
  rw [h.offsets c, ← offsetAfter_succ]
  simp [stepInst]

theorem exec_params_eq {i : Instr} {s t : State} (h : exec i s = .next t) : t.params = s.params := by
  rcases exec_next h with ⟨x, rfl, _⟩ | ⟨u, v, a, hu, rfl⟩
  · rfl
  · exact hu.params_eq

/-- R121: a command other than `INIT` that leaves an instance had one, and only `ADV` and `STEP` moved it. -/
theorem exec_inst_of_ne_init {i : Instr} {s t : State} {y : Inst} (hi : i ≠ .init) (h : exec i s = .next t)
    (hy : t.inst = some y) :
    ∃ x, s.inst = some x ∧
      ((i = .adv ∧ x.rem ≠ 0#16 ∧ y = advInst s.params x) ∨ (i = .step ∧ y = stepInst x) ∨
        (i ≠ .adv ∧ i ≠ .step ∧ y = x)) := by
  rcases exec_next h with ⟨x, rfl, _⟩ | ⟨u, v, a, hu, rfl⟩
  · cases hy
  · rw [answered_inst] at hy
    cases hu with
    | init _ => exact absurd rfl hi
    | adv hx hr => cases hy; exact ⟨_, hx, .inl ⟨rfl, hr, rfl⟩⟩
    | step hx => cases hy; exact ⟨_, hx, .inr (.inl ⟨rfl, rfl⟩)⟩
    | cfgw _ hw =>
      rw [(writeReg_frame hw).2] at hy
      exact ⟨y, hy, .inr (.inr ⟨by simp, by simp, rfl⟩)⟩
    | read hro =>
      have hne : i ≠ .adv ∧ i ≠ .step := by constructor <;> (rintro rfl; cases hro)
      exact ⟨y, hy, .inr (.inr ⟨hne.1, hne.2, rfl⟩)⟩

/-- Over a run without `INIT`, by induction on the commands: each move is put before the rest of the way. -/
theorem movedBy_of_runInstrs {is : List Instr} {s t : State} {y : Inst} (hinv : stateInv s = true)
    (hinit : ∀ i ∈ is, i ≠ .init) (hrun : runInstrs is s = .next t) (hy : t.inst = some y) :
    ∃ x, s.inst = some x ∧ MovedBy s.params x y (is.count .adv) (is.count .step) := by
  induction is generalizing s with
  | nil =>
    cases hrun
    exact ⟨y, hy, .refl (instWf_of_stateInv hinv hy)⟩
  | cons i is ih =>
    obtain ⟨u, hu, hrest⟩ := runInstrs_cons_next hrun
    obtain ⟨hi, his⟩ := List.forall_mem_cons.1 hinit
    obtain ⟨z, hz, hmoved⟩ := ih (exec_keeps_stateInv hinv hu) his hrest
    rw [exec_params_eq hu] at hmoved
    obtain ⟨x, hx, ⟨rfl, hr, rfl⟩ | ⟨rfl, rfl⟩ | ⟨hadv, hstep, rfl⟩⟩ := exec_inst_of_ne_init hi hu hz
    · exact ⟨x, hx, by simpa using hmoved.adv hr⟩
    · exact ⟨x, hx, by simpa using hmoved.step⟩
    · exact ⟨z, hx, by simpa [List.count_cons_of_ne, hadv, hstep] using hmoved⟩

/-- Settles O43: the fields of `MovedBy` over the run. -/
theorem instanceAfterARunIsDetermined : Obligations.InstanceAfterARunIsDetermined := by
  intro is s t x y hinv hx hinit hrun hy
  obtain ⟨z, hz, hmoved⟩ := movedBy_of_runInstrs hinv hinit hrun hy
  cases hz.symm.trans hx
  exact ⟨hmoved.advs_le, hmoved.rem, hmoved.ptr, hmoved.planes, hmoved.offsets, hmoved.latched⟩

/-! ### What the pull commands depend on -/

/-- Two outcomes that show the consumer and the instance the same, where the first is a next state. -/
def SameAnswer (r q : Result) : Prop :=
  ∀ t, r = .next t → ∃ w, q = .next w ∧ w.rsp = t.rsp ∧ w.inst = t.inst ∧ w.lastRead = t.lastRead

theorem sameAnswer_next {t w : State} (hr : w.rsp = t.rsp) (hi : w.inst = t.inst)
    (hl : w.lastRead = t.lastRead) : SameAnswer (.next t) (.next w) := by
  rintro _ ⟨⟩
  exact ⟨w, rfl, hr, hi, hl⟩

/-- Fault entry answers the cause alone. -/
theorem sameAnswer_trap {i : Instr} {x : Cause} {s u : State} : SameAnswer (trap i x s) (trap i x u) :=
  sameAnswer_next rfl rfl rfl

theorem sameAnswer_onInst {i : Instr} {s u : State} {body body' : Inst → Result} (hp : u.params = s.params)
    (hi : u.inst = s.inst) (h : ∀ x, SameAnswer (body x) (body' x)) :
    SameAnswer (onInst i s body) (onInst i u body') := by
  cases hs : s.inst with
  | none =>
    rw [onInst_none hs, onInst_none (hi.trans hs), hp]
    exact sameAnswer_trap
  | some x =>
    rw [onInst_some hs, onInst_some (hi.trans hs), hp]
    split
    · exact h x
    · exact sameAnswer_trap

theorem sameAnswer_onPixel {i : Instr} {s u : State} {x : Inst} {body body' : Result}
    (h : SameAnswer body body') : SameAnswer (onPixel i s x body) (onPixel i u x body') := by
  unfold onPixel
  split
  · exact sameAnswer_trap
  · exact h

theorem sameAnswer_readByte {s u : State} (a : Addr) (answer : Byte → Word) (hm : u.mem = s.mem)
    (hi : u.inst = s.inst) : SameAnswer (readByte s a answer) (readByte u a answer) := by
  intro t ht
  obtain ⟨b, hb, rfl⟩ := readByte_next ht
  exact ⟨_, readByte_some (hm ▸ hb), rfl, hi, rfl⟩

/-- Settles O45: each pull command is its checks, which see the parameters and the instance, and then a response
from the instance or a byte of memory. -/
theorem pullCommandsSeeOnlyInstanceAndMemory : Obligations.PullCommandsSeeOnlyInstanceAndMemory := by
  intro i s u t hinit hcfgw hcfgr hp hi hm ht
  suffices h : SameAnswer (exec i s) (exec i u) from h t ht
  cases i with
  | init => exact absurd rfl hinit
  | cfgw r v => exact absurd rfl (hcfgw r v)
  | cfgr r => exact absurd rfl (hcfgr r)
  | has n =>
    simp only [exec, execHas]
    exact sameAnswer_onInst hp hi fun x => sameAnswer_next rfl hi rfl
  | load ch lane =>
    simp only [exec, execLoad]
    refine sameAnswer_onInst hp hi fun x => sameAnswer_onPixel ?_
    rw [hp]
    exact sameAnswer_readByte _ _ hm hi
  | adv =>
    simp only [exec, execAdv]
    refine sameAnswer_onInst hp hi fun x => sameAnswer_onPixel ?_
    rw [hp]
    exact sameAnswer_next rfl rfl rfl
  | step =>
    simp only [exec, execStep]
    exact sameAnswer_onInst hp hi fun x => sameAnswer_next rfl rfl rfl
  | getsc ch =>
    simp only [exec, execGetsc]
    exact sameAnswer_onInst hp hi fun x => sameAnswer_next rfl hi rfl
  | loadlo ch =>
    simp only [exec, execLoadlo]
    refine sameAnswer_onInst hp hi fun x => ?_
    split
    · rw [hp]
      exact sameAnswer_onPixel (sameAnswer_readByte _ _ hm hi)
    · exact sameAnswer_trap
  | loadbr ch =>
    simp only [exec, execLoadbr]
    refine sameAnswer_onInst hp hi fun x => ?_
    split
    · exact sameAnswer_trap
    · exact sameAnswer_onPixel (sameAnswer_readByte _ _ hm hi)

end Sys2Proof.Machine
end

section
/-! PROOFS. The pixel memory (20_memory.md R60 to R72): host stores, what a command leaves of the memory, and what
each command reads and when that read stops the machine, with the statements about them settled. -/

namespace Sys2Proof.Machine

/-! ### Host stores -/

theorem step_store {s : State} {a : Addr} {b : Byte} {rest : List Input} (hs : s.inputs = .store a b :: rest) :
    step s = hostStore a b { s with inputs := rest } := by
  simp only [step, hs]

theorem hostStore_of_lt {s : State} {a : Addr} (b : Byte) (h : a.toNat < 2 ^ s.params.aw) :
    hostStore a b s = .next { s with mem := memoryWrite s.mem a.toNat b } :=
  if_pos h

theorem hostStore_of_ge {s : State} {a : Addr} (b : Byte) (h : 2 ^ s.params.aw ≤ a.toNat) :
    hostStore a b s = .fault (.noSuchAddress a.toNat) :=
  if_neg (Nat.not_lt.2 h)

/-- Settles O14: the new memory is `memoryWrite` of the old one, read by `memoryRead_memoryWrite`. -/
theorem hostStoreChangesOneByte : Obligations.HostStoreChangesOneByte := by
  intro s a b rest hs
  rw [step_store hs]
  refine ⟨fun h => ⟨memoryWrite s.mem a.toNat b, hostStore_of_lt b h, fun n => ?_⟩, fun h => hostStore_of_ge b h⟩
  exact memoryRead_memoryWrite s.mem a.toNat n b

/-! ### No command writes memory -/

/-- A register write touches neither the memory nor what is presented next (43_config.md R141, R61). -/
theorem writeReg_mem_inputs {s t : State} {r : Reg} {v : Word} (h : writeReg s r v = some t) :
    t.mem = s.mem ∧ t.inputs = s.inputs := by
  rcases writeReg_some h with ⟨_, rfl⟩ | ⟨_, c, _, rfl⟩
  · split <;> exact ⟨rfl, rfl⟩
  · exact ⟨rfl, rfl⟩

theorem Effect.mem_inputs {s u : State} {i : Instr} (he : Effect s i u) :
    u.mem = s.mem ∧ u.inputs = s.inputs := by
  cases he with
  | cfgw _ hw => exact writeReg_mem_inputs hw
  | _ => exact ⟨rfl, rfl⟩

/-- Settles O17: fault entry writes no memory, and no effect of a command does. -/
theorem commandsNeverWriteMemory : Obligations.CommandsNeverWriteMemory := by
  intro i s t h
  rcases exec_next h with ⟨x, rfl, _⟩ | ⟨u, v, a, hu, rfl⟩
  · exact ⟨rfl, rfl, rfl⟩
  · obtain ⟨hmem, hinputs⟩ := hu.mem_inputs
    exact ⟨hmem, hu.params_eq, hinputs⟩

/-! ### The plane reads -/

/-- The commands that read a byte of memory (R70). -/
def readsByte : Instr → Bool
  | .load _ _ => true
  | .loadlo _ => true
  | .loadbr _ => true
  | .init => false
  | .has _ => false
  | .adv => false
  | .step => false
  | .getsc _ => false
  | .cfgw _ _ => false
  | .cfgr _ => false

theorem readsByte_iff {i : Instr} :
    readsByte i = true ↔ (∃ ch lane, i = .load ch lane) ∨ (∃ ch, i = .loadlo ch) ∨ ∃ ch, i = .loadbr ch := by
  cases i <;> simp [readsByte]

/-- `PlaneRead p x i a`: with the instance `x`, the lane or plane of the command `i` exists and is enabled, and
`a` is the address the command reads (R64, R66, R67). -/
inductive PlaneRead (p : Params) (x : Inst) : Instr → Addr → Prop where
  | load {ch : Channel} {lane : BitVec 4} (hl : lane.toNat < p.nlanes) :
      PlaneRead p x (.load ch lane) (loadAddr p x ch lane)
  | loadlo {ch : Channel} (he : p.ext = true) (hx : x.xlo = true) :
      PlaneRead p x (.loadlo ch) (loadloAddr p x ch)
  | loadbr {ch : Channel} (he : p.ext = true) (hx : x.xbr ≠ 0#2) :
      PlaneRead p x (.loadbr ch) (loadbrAddr x ch)

theorem PlaneRead.readsByte {p : Params} {x : Inst} {i : Instr} {a : Addr} (h : PlaneRead p x i a) :
    readsByte i = true := by
  cases h <;> rfl

theorem readByte_none {s : State} {a : Addr} {answer : Byte → Word} (h : memoryRead s.mem a.toNat = none) :
    readByte s a answer = .fault (.unownedRead a.toNat) := by
  simp only [readByte, h]

theorem onPixel_of_pixel {i : Instr} {s : State} {x : Inst} (body : Result) (h : x.rem ≠ 0#16) :
    onPixel i s x body = body :=
  if_neg h

/-- A plane read with a remaining pixel passes every check and is its one-byte read. -/
theorem PlaneRead.exec_eq {s : State} {x : Inst} {i : Instr} {a : Addr} (h : PlaneRead s.params x i a)
    (hx : s.inst = some x) (hr : x.rem ≠ 0#16) : ∃ answer, exec i s = readByte s a answer := by
  cases h with
  | load hl =>
    exact ⟨_, (onInst_some hx).trans ((if_pos (decide_eq_true hl)).trans (onPixel_of_pixel _ hr))⟩
  | loadlo he hlo =>
    exact ⟨_, (onInst_some hx).trans ((if_pos he).trans ((if_pos hlo).trans (onPixel_of_pixel _ hr)))⟩
  | loadbr he hbr =>
    exact ⟨_, (onInst_some hx).trans ((if_pos he).trans ((if_neg hbr).trans (onPixel_of_pixel _ hr)))⟩

theorem PlaneRead.exec_unowned {s : State} {x : Inst} {i : Instr} {a : Addr} (h : PlaneRead s.params x i a)
    (hx : s.inst = some x) (hr : x.rem ≠ 0#16) (hm : memoryRead s.mem a.toNat = none) :
    exec i s = .fault (.unownedRead a.toNat) := by
  obtain ⟨answer, heq⟩ := h.exec_eq hx hr
  rw [heq, readByte_none hm]

/-- Settles O19: the checks passed are those of `PlaneRead`. -/
theorem unownedReadsAreStuck : Obligations.UnownedReadsAreStuck :=
  fun _ _ _ hx hr =>
    ⟨fun _ hl => (PlaneRead.load hl).exec_unowned hx hr,
      fun he hlo => (PlaneRead.loadlo he hlo).exec_unowned hx hr,
      fun he hbr => (PlaneRead.loadbr he hbr).exec_unowned hx hr⟩

/-! ### Every outcome of a command -/

/-- The command ends in fault entry. -/
def Traps (i : Instr) (s : State) (r : Result) : Prop :=
  ∃ c, r = .next (raise c (encode i).cmd s)

theorem traps_trap (i : Instr) (c : Cause) (s : State) : Traps i s (trap i c s) :=
  ⟨c, rfl⟩

/-- The two checks of `onInst` trap, or its body decides. -/
theorem onInst_cases (i : Instr) (s : State) (body : Inst → Result) :
    Traps i s (onInst i s body) ∨
    ∃ x, s.inst = some x ∧ i.wellFormed s.params = true ∧ onInst i s body = body x := by
  cases hx : s.inst with
  | none =>
    rw [onInst_none hx]
    exact .inl (traps_trap i _ s)
  | some x =>
    rw [onInst_some hx]
    split
    · next hw => exact .inr ⟨x, rfl, hw, rfl⟩
    · exact .inl (traps_trap i _ s)

theorem onPixel_cases (i : Instr) (s : State) (x : Inst) (body : Result) :
    Traps i s (onPixel i s x body) ∨ (x.rem ≠ 0#16 ∧ onPixel i s x body = body) := by
  by_cases hr : x.rem = 0#16
  · exact .inl ⟨.underrun, if_pos hr⟩
  · exact .inr ⟨hr, onPixel_of_pixel body hr⟩

/-- A plane read traps, or passes every check with a pixel remaining. -/
theorem exec_traps_or_planeRead {i : Instr} (s : State) (hi : readsByte i = true) :
    Traps i s (exec i s) ∨ ∃ x a, s.inst = some x ∧ x.rem ≠ 0#16 ∧ PlaneRead s.params x i a := by
  rcases readsByte_iff.1 hi with ⟨ch, lane, rfl⟩ | ⟨ch, rfl⟩ | ⟨ch, rfl⟩
  · rw [exec, execLoad]
    rcases onInst_cases (.load ch lane) s _ with ht | ⟨x, hx, hw, heq⟩
    · exact .inl ht
    · rw [heq]
      exact (onPixel_cases _ s x _).imp_right fun ⟨hr, _⟩ => ⟨x, _, hx, hr, .load (of_decide_eq_true hw)⟩
  · rw [exec, execLoadlo]
    rcases onInst_cases (.loadlo ch) s _ with ht | ⟨x, hx, hw, heq⟩
    · exact .inl ht
    · rw [heq]
      split
      · next hlo => exact (onPixel_cases _ s x _).imp_right fun ⟨hr, _⟩ => ⟨x, _, hx, hr, .loadlo hw hlo⟩
      · exact .inl (traps_trap _ _ s)
  · rw [exec, execLoadbr]
    rcases onInst_cases (.loadbr ch) s _ with ht | ⟨x, hx, hw, heq⟩
    · exact .inl ht
    · rw [heq]
      split
      · exact .inl (traps_trap _ _ s)
      · next hbr => exact (onPixel_cases _ s x _).imp_right fun ⟨hr, _⟩ => ⟨x, _, hx, hr, .loadbr hw hbr⟩

/-- Every other command traps, or answers without a read. -/
theorem exec_traps_or_answers {i : Instr} (s : State) (hi : readsByte i = false) :
    Traps i s (exec i s) ∨ ∃ u v, exec i s = .next (answered v none u) := by
  cases i with
  | load | loadlo | loadbr => cases hi
  | init =>
    rw [exec, execInit]
    split
    · exact .inl (traps_trap _ _ s)
    · exact .inr ⟨_, _, rfl⟩
  | has n => exact (onInst_cases (.has n) s _).imp_right fun ⟨_, _, _, heq⟩ => ⟨_, _, heq⟩
  | adv =>
    rw [exec, execAdv]
    rcases onInst_cases .adv s _ with ht | ⟨x, _, _, heq⟩
    · exact .inl ht
    · rw [heq]
      exact (onPixel_cases _ s x _).imp_right fun ⟨_, heq⟩ => ⟨_, _, heq⟩
  | step => exact (onInst_cases .step s _).imp_right fun ⟨_, _, _, heq⟩ => ⟨_, _, heq⟩
  | getsc ch => exact (onInst_cases (.getsc ch) s _).imp_right fun ⟨_, _, _, heq⟩ => ⟨_, _, heq⟩
  | cfgw reg v =>
    rw [exec, execCfgw]
    split
    · exact .inl (traps_trap _ _ s)
    · split
      · exact .inl (traps_trap _ _ s)
      · exact .inr ⟨_, _, rfl⟩
  | cfgr reg =>
    rw [exec, execCfgr]
    split
    · exact .inl (traps_trap _ _ s)
    · split
      · exact .inl (traps_trap _ _ s)
      · exact .inr ⟨_, _, rfl⟩

/-- Settles O18: a trap and an answer are next states, and a plane read stops only where no byte is held. -/
theorem commandsStopOnlyOnUnownedReads : Obligations.CommandsStopOnlyOnUnownedReads := by
  intro i s
  cases hi : readsByte i with
  | false =>
    rcases exec_traps_or_answers s hi with ⟨c, ht⟩ | ⟨u, v, ht⟩
    · exact .inl ⟨_, ht⟩
    · exact .inl ⟨_, ht⟩
  | true =>
    rcases exec_traps_or_planeRead s hi with ⟨c, ht⟩ | ⟨x, a, hx, hr, hread⟩
    · exact .inl ⟨_, ht⟩
    cases hm : memoryRead s.mem a.toNat with
    | some b =>
      obtain ⟨answer, heq⟩ := hread.exec_eq hx hr
      exact .inl ⟨_, heq.trans (readByte_some hm)⟩
    | none =>
      refine .inr ⟨x, a.toNat, hx, hread.exec_unowned hx hr hm, hm, ?_⟩
      cases hread with
      | load _ => exact .inl ⟨_, _, rfl, rfl⟩
      | loadlo _ _ => exact .inr (.inl ⟨_, rfl, rfl⟩)
      | loadbr _ _ => exact .inr (.inr ⟨_, rfl, rfl⟩)

/-! ### What a command has read -/

/-- A command that answers a next state has faulted and read nothing; or has answered and read nothing, and is no
plane read; or is a plane read that has read the byte held at its address. -/
theorem exec_next_lastRead {i : Instr} {s t : State} (h : exec i s = .next t) :
    (rspErr t = true ∧ t.lastRead = none) ∨
    (rspErr t = false ∧ t.lastRead = none ∧ readsByte i = false) ∨
    (rspErr t = false ∧ ∃ x a, t.lastRead = some a ∧ memoryRead s.mem a.toNat ≠ none ∧
      s.inst = some x ∧ x.rem ≠ 0#16 ∧ PlaneRead s.params x i a) := by
  cases hi : readsByte i with
  | false =>
    rcases exec_traps_or_answers s hi with ⟨c, ht⟩ | ⟨u, v, ht⟩ <;> cases ht.symm.trans h
    · exact .inl ⟨rfl, rfl⟩
    · exact .inr (.inl ⟨rfl, rfl, rfl⟩)
  | true =>
    rcases exec_traps_or_planeRead s hi with ⟨c, ht⟩ | ⟨x, a, hx, hr, hread⟩
    · cases ht.symm.trans h
      exact .inl ⟨rfl, rfl⟩
    · obtain ⟨answer, heq⟩ := hread.exec_eq hx hr
      obtain ⟨b, hb, rfl⟩ := readByte_next (heq.symm.trans h)
      exact .inr (.inr ⟨rfl, x, a, rfl, by simp [hb], hx, hr, hread⟩)

/-- Settles O26: the three cases of `exec_next_lastRead`. -/
theorem onlyPlaneReadsReadMemory : Obligations.OnlyPlaneReadsReadMemory := by
  intro i s t h
  rw [← readsByte_iff]
  rcases exec_next_lastRead h with ⟨herr, hnone⟩ | ⟨herr, hnone, hi⟩ | ⟨herr, x, a, hsome, hm, _, _, hread⟩
  · exact ⟨.inl hnone, by simp [herr, hnone]⟩
  · exact ⟨.inl hnone, by simp [hi, hnone]⟩
  · exact ⟨.inr ⟨a, hsome, hm⟩, by simp [herr, hsome, hread.readsByte]⟩

/-! ### The declared extents -/

/-- A legal order names byte 0, 1 or 2 of a pixel (30_encoding.md R91). -/
theorem ordField_le_two {code : BitVec 6} (h : orderLegal code = true) (ch : Channel) :
    (ordField code ch).toNat ≤ 2 := by
  revert code
  cases ch <;> decide

theorem loadbrAddr_eq_get (x : Inst) (ch : Channel) :
    loadbrAddr x ch = x.brptr.get (if x.xbr = 1#2 then .red else ch) :=
  (apply_ite x.brptr.get _ _ _).symm

theorem runInstrs_params_eq {is : List Instr} {s t : State} (h : runInstrs is s = .next t) :
    t.params = s.params := by
  induction is generalizing s with
  | nil =>
    cases h
    rfl
  | cons i is ih =>
    obtain ⟨u, hu, hrest⟩ := runInstrs_cons_next h
    exact (ih hrest).trans (exec_params_eq hu)

section Moved

variable {p : Params} {x y : Inst} {advs steps : Nat}

/-- With a pixel remaining, fewer pixels were passed than there were. -/
theorem MovedBy.advs_lt (h : MovedBy p x y advs steps) (hr : y.rem ≠ 0#16) : advs < x.rem.toNat := by
  have hpos : y.rem.toNat ≠ 0 := fun h0 => hr (BitVec.eq_of_toNat_eq h0)
  have hrem := h.rem
  omega

/-- Byte `3 * advs + ord` of the lane (R65). -/
theorem MovedBy.loadAddr_inPixelExtent (h : MovedBy p x y advs steps) (hr : y.rem ≠ 0#16)
    (ho : orderLegal x.ord = true) (ch : Channel) (lane : BitVec 4) :
    inPixelExtent p x.ptr (laneOffset x.off lane) x.rem.toNat (loadAddr p y ch lane) := by
  obtain ⟨_, _, hord, hoff, _, _⟩ := h.latched
  have hlt := h.advs_lt hr
  have hle := ordField_le_two ho ch
  refine ⟨3 * advs + (ordField x.ord ch).toNat, by omega, ?_⟩
  rw [loadAddr, h.ptr, hoff, hord, Nat.add_assoc, addrOf_addrOf_add]
  congr 1
  omega

/-- Byte `3 * advs + ord` of the low-byte plane (R66). -/
theorem MovedBy.loadloAddr_inPixelExtent (h : MovedBy p x y advs steps) (hr : y.rem ≠ 0#16)
    (ho : orderLegal x.ord = true) (he : p.ext = true) (ch : Channel) :
    inPixelExtent p x.loptr 0#32 x.rem.toNat (loadloAddr p y ch) := by
  obtain ⟨_, _, hord, _⟩ := h.latched
  obtain ⟨hloptr, _⟩ := h.planes he
  have hlt := h.advs_lt hr
  have hle := ordField_le_two ho ch
  refine ⟨3 * advs + (ordField x.ord ch).toNat, by omega, ?_⟩
  rw [loadloAddr, hloptr, hord, addrOf_addrOf_add, BitVec.toNat_zero, Nat.add_zero, Nat.add_assoc]

/-- Entry `advs` of the selected brightness plane (R67). -/
theorem MovedBy.loadbrAddr_inPlaneExtent (h : MovedBy p x y advs steps) (hr : y.rem ≠ 0#16)
    (he : p.ext = true) (ch : Channel) :
    inPlaneExtent p (loadbrAddr x ch) x.rem.toNat (loadbrAddr y ch) := by
  obtain ⟨_, _, _, _, _, hxbr⟩ := h.latched
  obtain ⟨_, hbrptr⟩ := h.planes he
  refine ⟨advs, h.advs_lt hr, ?_⟩
  rw [loadbrAddr_eq_get, loadbrAddr_eq_get, hxbr, hbrptr]

end Moved

/-- Settles O44: the run has moved the instance by some `ADV`s (`movedBy_of_runInstrs`), fewer than the pixels
there were, and the read is at its address in the moved instance. -/
theorem readsStayInTheDeclaredExtents : Obligations.ReadsStayInTheDeclaredExtents := by
  intro is i s t u x a hinv hx hinit hrun hu ha
  rcases exec_next_lastRead hu with ⟨_, hnone⟩ | ⟨_, hnone, _⟩ | ⟨_, y, c, hsome, _, hy, hr, hread⟩
  · cases hnone.symm.trans ha
  · cases hnone.symm.trans ha
  · cases hsome.symm.trans ha
    obtain ⟨z, hz, hmoved⟩ := movedBy_of_runInstrs hinv hinit hrun hy
    cases hz.symm.trans hx
    obtain ⟨_, _, _, _, horder, _⟩ := instWf_iff.1 (instWf_of_stateInv hinv hx)
    rw [runInstrs_params_eq hrun] at hread
    cases hread with
    | load _ => exact .inl ⟨_, _, rfl, hmoved.loadAddr_inPixelExtent hr horder _ _⟩
    | loadlo he _ => exact .inr (.inl ⟨_, rfl, hmoved.loadloAddr_inPixelExtent hr horder he _⟩)
    | loadbr he _ => exact .inr (.inr ⟨_, rfl, hmoved.loadbrAddr_inPlaneExtent hr he _⟩)

end Sys2Proof.Machine
end

section
/-! PROOFS. The command words as fields (30_encoding.md R81 to R83): the encoder's words hold the operands of their
instruction, and the decoder inverts it; a word that selects a row of the opcode table (R86) is a word of the
encoder; with the statements about the decoder settled. -/

namespace Sys2Proof

/-! ### The fields of the encoder's words -/

section Fields

variable (op lane : BitVec 4) (ch : Channel) (reg : BitVec 8)

@[simp] theorem wordC_opcode : (wordC op lane ch).extractLsb' 12 4 = op := by
  simp (disch := decide) only [wordC, BitVec.extractLsb'_append_eq_of_le]
  exact BitVec.extractLsb'_eq_self

@[simp] theorem wordC_lane : (wordC op lane ch).extractLsb' 8 4 = lane := by
  simp (disch := decide) only [wordC, BitVec.extractLsb'_append_eq_of_le]
  exact BitVec.extractLsb'_append_eq_right

@[simp] theorem wordC_zeros : (wordC op lane ch).extractLsb' 2 6 = 0#6 := by
  rw [wordC, BitVec.extractLsb'_append_eq_of_le (by decide)]
  exact BitVec.extractLsb'_append_eq_right

@[simp] theorem wordC_channel : (wordC op lane ch).extractLsb' 0 2 = ch.bits :=
  BitVec.extractLsb'_append_eq_right

@[simp] theorem wordR_opcode : (wordR op reg).extractLsb' 12 4 = op := by
  rw [wordR, BitVec.extractLsb'_append_eq_of_le (by decide)]
  exact BitVec.extractLsb'_append_eq_left

@[simp] theorem wordR_zeros : (wordR op reg).extractLsb' 8 4 = 0#4 := by
  rw [wordR, BitVec.extractLsb'_append_eq_of_le (by decide)]
  exact BitVec.extractLsb'_append_eq_right

@[simp] theorem wordR_register : (wordR op reg).extractLsb' 0 8 = reg :=
  BitVec.extractLsb'_append_eq_right

end Fields

@[simp] theorem Channel.ofBits_bits (ch : Channel) : Channel.ofBits ch.bits = some ch := by
  cases ch <;> rfl

theorem Channel.bits_ne_three (ch : Channel) : ch.bits ≠ 3#2 := by
  cases ch <;> decide

/-- Only `ch = 3` names no channel (R82). -/
theorem Channel.exists_ofBits_iff {b : BitVec 2} : (∃ ch, Channel.ofBits b = some ch) ↔ b ≠ 3#2 := by
  rw [← Option.isSome_iff_exists]
  revert b
  decide

/-! ### Decoding the encoder's words -/

/-- The instruction presented with the argument word `a`, which is an operand of `HAS` and `CFGW` only (R84). -/
def Instr.withArg (a : Word) : Instr → Instr
  | .has _ => .has a
  | .cfgw reg _ => .cfgw reg a
  | .init => .init
  | .load ch lane => .load ch lane
  | .adv => .adv
  | .step => .step
  | .getsc ch => .getsc ch
  | .loadlo ch => .loadlo ch
  | .loadbr ch => .loadbr ch
  | .cfgr reg => .cfgr reg

@[simp] theorem Instr.withArg_encode_arg (i : Instr) : i.withArg (encode i).arg = i := by
  cases i <;> rfl

/-- The encoder's word decodes to its instruction, with the argument word that is presented beside it. -/
theorem decode_encode_cmd (i : Instr) (a : Word) : decode ⟨(encode i).cmd, a⟩ = .ok (i.withArg a) := by
  cases i with
  | init | has | adv | step => simp [decode, encode, decodeFormatN, Instr.withArg]
  | load ch lane => simp [decode, encode, decodeFormatC, Instr.withArg]
  | getsc ch | loadlo ch | loadbr ch => simp [decode, encode, decodeFormatC0, decodeFormatC, Instr.withArg]
  | cfgw reg v | cfgr reg => simp [decode, encode, decodeFormatR, Instr.withArg]

theorem decode_encode (i : Instr) : decode (encode i) = .ok i := by
  simpa using decode_encode_cmd i (encode i).arg

/-- A command decodes to nothing but what its words say: the decoder is inverted by the encoder. -/
theorem withArg_of_decode {c : Command} {i : Instr} (h : decode c = .ok i) : i.withArg c.arg = i := by
  have hword := decode_encode_cmd i c.arg
  rw [encode_cmd_of_decode h] at hword
  exact Except.ok.inj (hword.symm.trans h)

/-- The words that decode are the encoder's. -/
theorem exists_decode_iff {c : Command} : (∃ i, decode c = .ok i) ↔ ∃ i, (encode i).cmd = c.cmd := by
  constructor
  · rintro ⟨i, hi⟩
    exact ⟨i, encode_cmd_of_decode hi⟩
  · rintro ⟨i, hi⟩
    have hword := decode_encode_cmd i c.arg
    rw [hi] at hword
    exact ⟨_, hword⟩

/-- Settles O4, by `decode_encode`: the fields of each encoded word are its operands. -/
theorem decodeOfEncodeIsTheInstruction : Obligations.DecodeOfEncodeIsTheInstruction :=
  decode_encode

/-- Settles O8: each legal word is the encoder's for its command. -/
theorem writtenOutWordsDecode : Obligations.WrittenOutWordsDecode :=
  ⟨decode_encode .init, decode_encode (.has _), decode_encode (.load .blue 1#4), decode_encode .adv,
    decode_encode .step, decode_encode (.getsc .green), decode_encode (.loadlo .blue), decode_encode (.loadbr .red),
    decode_encode (.cfgw 0x10#8 6#32), decode_encode (.cfgr 0x20#8), rfl, rfl, rfl⟩

/-- Settles O5: the word by `encode_cmd_of_decode`, the argument by `withArg_of_decode`. -/
theorem encodeOfDecodedWordIsTheWord : Obligations.EncodeOfDecodedWordIsTheWord := by
  intro c i h
  refine ⟨encode_cmd_of_decode h, ?_⟩
  have harg := withArg_of_decode h
  cases i with
  | has n => exact (Instr.has.inj harg).symm
  | cfgw reg v => exact (Instr.cfgw.inj harg).2.symm
  | _ => rfl

/-! ### The rows of the opcode table -/

/-- A field that a mask covers is the field of the pattern. -/
theorem extractLsb'_of_mask {w mask pattern : CmdWord} (h : w &&& mask = pattern) (start len : Nat)
    (hmask : mask.extractLsb' start len = BitVec.allOnes len) :
    w.extractLsb' start len = pattern.extractLsb' start len := by
  rw [← h, BitVec.extractLsb'_and, hmask, BitVec.and_allOnes]

/-- The opcode of a row (R86). -/
def OpRow.opcode (r : OpRow) : BitVec 4 :=
  r.pattern.extractLsb' 12 4

/-- Every row fixes the whole opcode. -/
theorem opcode_of_selects {w : CmdWord} {r : OpRow} (hr : r ∈ opcodeTable) (h : w &&& r.mask = r.pattern) :
    w.extractLsb' 12 4 = r.opcode := by
  have hmask : ∀ q ∈ opcodeTable, q.mask.extractLsb' 12 4 = BitVec.allOnes 4 := by decide
  exact extractLsb'_of_mask h 12 4 (hmask r hr)

/-- No two rows have the same opcode. -/
theorem row_eq_of_opcode_eq {r q : OpRow} (hr : r ∈ opcodeTable) (hq : q ∈ opcodeTable)
    (h : r.opcode = q.opcode) : r = q := by
  have hnodup : (opcodeTable.map OpRow.opcode).Nodup := by decide
  exact List.inj_on_of_nodup_map hnodup hr hq h

/-- The fields of a row's pattern below the opcode are 0. -/
theorem pattern_zeros (op : BitVec 4) (start len : Nat) (h : start + len ≤ 12) :
    (op ++ 0#12).extractLsb' start len = 0#len := by
  rw [BitVec.extractLsb'_append_eq_of_add_le h, BitVec.extractLsb'_zero]

section Rows

variable {w mask : CmdWord} {op : BitVec 4} (h : w &&& mask = op ++ 0#12)

include h

theorem opcode_of_mask (hmask : mask.extractLsb' 12 4 = BitVec.allOnes 4) :
    (w.extractLsb' 12 4).toNat = op.toNat := by
  rw [extractLsb'_of_mask h 12 4 hmask, BitVec.extractLsb'_append_eq_left]

theorem zeros_of_mask (start len : Nat) (hlen : start + len ≤ 12)
    (hmask : mask.extractLsb' start len = BitVec.allOnes len) : w.extractLsb' start len = 0#len :=
  (extractLsb'_of_mask h start len hmask).trans (pattern_zeros op start len hlen)

end Rows

section Selected

variable {w : CmdWord} (op : BitVec 4)

theorem exists_wordC_of_mask (h : w &&& 0xF0FC#16 = op ++ 0#12) (hch : w.extractLsb' 0 2 ≠ 3#2) :
    ∃ lane ch, wordC op lane ch = w := by
  obtain ⟨ch, hch⟩ := Channel.exists_ofBits_iff.2 hch
  exact ⟨_, ch, wordC_of_fields op (opcode_of_mask h rfl) (zeros_of_mask h 2 6 (by decide) rfl) hch⟩

theorem exists_wordC_zeroLane_of_mask (h : w &&& 0xFFFC#16 = op ++ 0#12) (hch : w.extractLsb' 0 2 ≠ 3#2) :
    ∃ ch, wordC op 0#4 ch = w := by
  obtain ⟨ch, hch⟩ := Channel.exists_ofBits_iff.2 hch
  exact ⟨ch, wordC_of_fields_zeroLane op (opcode_of_mask h rfl) (zeros_of_mask h 8 4 (by decide) rfl)
    (zeros_of_mask h 2 6 (by decide) rfl) hch⟩

theorem exists_wordR_of_mask (h : w &&& 0xFF00#16 = op ++ 0#12) : ∃ reg, wordR op reg = w :=
  ⟨_, wordR_of_fields op (opcode_of_mask h rfl) (zeros_of_mask h 8 4 (by decide) rfl)⟩

end Selected

/-- A word that selects a row, with a channel where the row's format has one, is a word of the encoder. -/
theorem exists_encode_of_selects {w : CmdWord} {r : OpRow} (hr : r ∈ opcodeTable) (h : w &&& r.mask = r.pattern)
    (hch : r.format = .c → w.extractLsb' 0 2 ≠ 3#2) : ∃ i, (encode i).cmd = w := by
  obtain ⟨i, -, rfl⟩ := List.mem_map.1 hr
  have hN : i.row.mask = BitVec.allOnes 16 → i.row.pattern = w := fun hm => by
    rw [← h, hm, BitVec.and_allOnes]
  cases i with
  | init => exact ⟨.init, hN rfl⟩
  | has n => exact ⟨.has n, hN rfl⟩
  | adv => exact ⟨.adv, hN rfl⟩
  | step => exact ⟨.step, hN rfl⟩
  | load =>
    obtain ⟨lane, ch, hw⟩ := exists_wordC_of_mask 3#4 h (hch rfl)
    exact ⟨.load ch lane, hw⟩
  | getsc =>
    obtain ⟨ch, hw⟩ := exists_wordC_zeroLane_of_mask 6#4 h (hch rfl)
    exact ⟨.getsc ch, hw⟩
  | loadlo =>
    obtain ⟨ch, hw⟩ := exists_wordC_zeroLane_of_mask 7#4 h (hch rfl)
    exact ⟨.loadlo ch, hw⟩
  | loadbr =>
    obtain ⟨ch, hw⟩ := exists_wordC_zeroLane_of_mask 8#4 h (hch rfl)
    exact ⟨.loadbr ch, hw⟩
  | cfgw _ v =>
    obtain ⟨reg, hw⟩ := exists_wordR_of_mask 9#4 h
    exact ⟨.cfgw reg v, hw⟩
  | cfgr =>
    obtain ⟨reg, hw⟩ := exists_wordR_of_mask 10#4 h
    exact ⟨.cfgr reg, hw⟩

/-- The word of every instruction lies in its row, by the laws of each instruction. -/
theorem encode_selects_row (i : Instr) : Laws.TableRow.Statement i := by
  cases i with
  | init => exact Laws.TableRow.init
  | has n => exact Laws.TableRow.has n
  | load ch lane => exact Laws.TableRow.load ch lane
  | adv => exact Laws.TableRow.adv
  | step => exact Laws.TableRow.step
  | getsc ch => exact Laws.TableRow.getsc ch
  | loadlo ch => exact Laws.TableRow.loadlo ch
  | loadbr ch => exact Laws.TableRow.loadbr ch
  | cfgw reg v => exact Laws.TableRow.cfgw reg v
  | cfgr reg => exact Laws.TableRow.cfgr reg

/-- An encoded word of format C names a channel. -/
theorem encode_channel_ne_three {i : Instr} (h : i.row.format = .c) : (encode i).cmd.extractLsb' 0 2 ≠ 3#2 := by
  cases i with
  | load ch | getsc ch | loadlo ch | loadbr ch => simpa [encode] using ch.bits_ne_three
  | init | has | adv | step | cfgw | cfgr => cases h

/-- Settles O6: the words that decode are the encoder's, which are those that select a row with a channel; the
opcode, which every row fixes, tells the rows apart. -/
theorem decodeFollowsTheOpcodeTable : Obligations.DecodeFollowsTheOpcodeTable := by
  refine ⟨fun c => ?_, fun c i h => ?_, fun w r hr q hq hwr hwq => ?_⟩
  · rw [exists_decode_iff]
    constructor
    · rintro ⟨i, hi⟩
      obtain ⟨hword, hrow⟩ := encode_selects_row i
      exact ⟨i.row, hrow, hi ▸ hword, hi ▸ encode_channel_ne_three⟩
    · rintro ⟨r, hr, h, hch⟩
      exact exists_encode_of_selects hr h hch
  · obtain ⟨hword, hrow⟩ := encode_selects_row i
    exact ⟨hrow, encode_cmd_of_decode h ▸ hword⟩
  · exact row_eq_of_opcode_eq hr hq ((opcode_of_selects hr hwr).symm.trans (opcode_of_selects hq hwq))

end Sys2Proof
end

section
/-! PROOFS. Illegal command words (30_encoding.md R87), the form of every answer (R85), the channel-order codes (R91)
and the pseudo-instructions (R94), with the statements about them settled. -/

namespace Sys2Proof.Machine

/-! ### The fields of a word as numbers -/

section Fields

variable (w : CmdWord)

theorem opcode_toNat : (w.extractLsb' 12 4).toNat = w.toNat / 4096 := by
  have hw := w.isLt
  rw [BitVec.extractLsb'_toNat, Nat.shiftRight_eq_div_pow]
  omega

theorem lane_toNat : (w.extractLsb' 8 4).toNat = w.toNat / 256 % 16 := by
  rw [BitVec.extractLsb'_toNat, Nat.shiftRight_eq_div_pow]

theorem zeros_toNat : (w.extractLsb' 2 6).toNat = w.toNat / 4 % 64 := by
  rw [BitVec.extractLsb'_toNat, Nat.shiftRight_eq_div_pow]

theorem channel_toNat : (w.extractLsb' 0 2).toNat = w.toNat % 4 := by
  rw [BitVec.extractLsb'_toNat, Nat.shiftRight_zero]

theorem low_toNat : (w.extractLsb' 0 12).toNat = w.toNat % 4096 := by
  rw [BitVec.extractLsb'_toNat, Nat.shiftRight_zero]

end Fields

/-! ### Illegal words, format by format -/

section Illegal

variable {p : Params} {w : CmdWord}

theorem illegalWord_formatN (h : (w.extractLsb' 12 4).toNat ∈ [1, 2, 4, 5]) :
    illegalWord p w = false ↔ w.extractLsb' 0 12 = 0#12 := by
  rw [opcode_toNat, List.mem_cons, List.mem_cons, List.mem_pair] at h
  rw [← BitVec.toNat_inj, low_toNat]
  rcases h with h | h | h | h <;> simp [illegalWord, h]

theorem illegalWord_load (h : (w.extractLsb' 12 4).toNat = 3) :
    illegalWord p w = false ↔ w.extractLsb' 2 6 = 0#6 ∧ w.extractLsb' 0 2 ≠ 3#2 ∧
      (w.extractLsb' 8 4).toNat < p.nlanes := by
  rw [opcode_toNat] at h
  rw [← BitVec.toNat_inj, Ne, ← BitVec.toNat_inj, zeros_toNat, channel_toNat, lane_toNat]
  simp [illegalWord, h, and_assoc]

/-- `GETSC`, `LOADLO` and `LOADBR`: the last two need `EXT`. -/
theorem illegalWord_zeroLane (h : (w.extractLsb' 12 4).toNat ∈ [6, 7, 8]) :
    illegalWord p w = false ↔ w.extractLsb' 8 4 = 0#4 ∧ w.extractLsb' 2 6 = 0#6 ∧ w.extractLsb' 0 2 ≠ 3#2 ∧
      ((w.extractLsb' 12 4).toNat = 6 ∨ p.ext = true) := by
  rw [opcode_toNat, List.mem_cons, List.mem_pair] at h
  rw [← BitVec.toNat_inj, ← BitVec.toNat_inj, Ne, ← BitVec.toNat_inj, opcode_toNat, zeros_toNat, channel_toNat,
    lane_toNat]
  rcases h with h | h | h <;> simp [illegalWord, h, and_assoc, and_comm]

theorem illegalWord_formatR (h : (w.extractLsb' 12 4).toNat ∈ [9, 10]) :
    illegalWord p w = false ↔ w.extractLsb' 8 4 = 0#4 := by
  rw [opcode_toNat, List.mem_pair] at h
  rw [← BitVec.toNat_inj, lane_toNat]
  rcases h with h | h <;> simp [illegalWord, h]

theorem illegalWord_reserved (h : (w.extractLsb' 12 4).toNat = 0 ∨ 0xB ≤ (w.extractLsb' 12 4).toNat) :
    illegalWord p w = true := by
  rw [opcode_toNat] at h
  simp only [illegalWord, decide_eq_true h, Bool.true_or]

end Illegal

/-- R87 read both ways: a word is legal for a block exactly when it decodes to a command the block has. -/
theorem illegalWord_eq_false_iff {p : Params} {c : Command} :
    illegalWord p c.cmd = false ↔ ∃ i, decode c = .ok i ∧ i.wellFormed p = true := by
  unfold decode
  split
  case h_1 hop | h_2 hop | h_4 hop | h_5 hop =>
    simp [illegalWord_formatN, hop, decodeFormatN_eq_ok, Instr.wellFormed]
  case h_3 hop =>
    simp [illegalWord_load hop, decodeFormatC_eq_ok, Instr.wellFormed, ← Channel.exists_ofBits_iff, and_assoc]
  case h_6 hop | h_7 hop | h_8 hop =>
    simp [illegalWord_zeroLane, hop, decodeFormatC0_eq_ok, Instr.wellFormed, ← Channel.exists_ofBits_iff, and_assoc]
  case h_9 hop | h_10 hop =>
    simp [illegalWord_formatR, hop, decodeFormatR_eq_ok, Instr.wellFormed]
  case h_11 =>
    simp only [imp_false] at *
    have hreserved : illegalWord p c.cmd = true := illegalWord_reserved (by omega)
    simp [hreserved]

theorem onInst_of_illegal {i : Instr} {s : State} (body : Inst → Result) (h : i.wellFormed s.params = false) :
    onInst i s body = trap i .illegalCommand s := by
  simp only [onInst, h, Bool.false_eq_true, if_false]

/-- A command the block does not have takes `IllegalCommand`, whatever the state (R161). -/
theorem exec_of_illegal {i : Instr} {s : State} (h : i.wellFormed s.params = false) :
    exec i s = trap i .illegalCommand s := by
  cases i with
  | load | loadlo | loadbr => exact onInst_of_illegal _ h
  | init | has | adv | step | getsc | cfgw | cfgr => cases h

/-- Fault entry with the word presented is all that an illegal word does. -/
theorem step_of_illegalWord {s : State} {c : Command} {rest : List Input} (hs : s.inputs = .command c :: rest)
    (h : illegalWord s.params c.cmd = true) :
    step s = .next (raise .illegalCommand c.cmd { s with inputs := rest }) := by
  cases hc : decode c with
  | error e => simp only [step, hs, hc]
  | ok i =>
    have hw : i.wellFormed s.params = false := by
      by_contra hw
      have hlegal := illegalWord_eq_false_iff.2 ⟨i, hc, Bool.eq_true_of_not_eq_false hw⟩
      exact Bool.false_ne_true (hlegal.symm.trans h)
    rw [step_of_decode_ok hs hc, exec_of_illegal (s := { s with inputs := rest }) hw, trap, encode_cmd_of_decode hc]

/-- Settles O7: an illegal word does not decode, or its command is one the block does not have, and either way the
step is fault entry. -/
theorem illegalWordsRaiseIllegalCommand : Obligations.IllegalWordsRaiseIllegalCommand :=
  ⟨fun _ _ _ hs h => step_of_illegalWord hs h, fun _ _ => illegalWord_eq_false_iff, fun _ => rfl⟩

/-! ### The form of every answer -/

/-- The value a command answers when it does not fault (R85). -/
def AnswerForm (s : State) (i : Instr) (v : Word) : Prop :=
  match i with
  | .init => v = 0#32
  | .has _ => v = 0#32 ∨ v = 1#32
  | .load _ _ => v.toNat < 2 ^ 8
  | .adv => v = 0#32
  | .step => v = 0#32
  | .getsc _ => v.toNat < 2 ^ 8
  | .loadlo _ => v.toNat < 2 ^ 8
  | .loadbr _ => v.toNat < 2 ^ 5
  | .cfgw _ _ => v = 0#32
  | .cfgr reg => ∃ g, regOf s.params reg = some g ∧ readReg s g = some v

theorem setWidth_toNat_lt {n m : Nat} (b : BitVec n) : (b.setWidth m).toNat < 2 ^ n := by
  rw [BitVec.toNat_setWidth]
  exact (Nat.mod_le _ _).trans_lt b.isLt

/-- A command that answers next has faulted, or has answered in its form. -/
theorem exec_next_answerForm {i : Instr} {s t : State} (h : exec i s = .next t) :
    rspErr t = true ∨ ∃ v, t.rsp = some ⟨v, false⟩ ∧ AnswerForm s i v := by
  cases i with
  | init =>
    rcases execInit_next h with ⟨_, _, rfl⟩ | ⟨_, rfl⟩
    · exact .inl rfl
    · exact .inr ⟨_, rfl, rfl⟩
  | has n =>
    rcases execHas_next h with ⟨_, rfl⟩ | ⟨x, _, rfl⟩
    · exact .inl rfl
    · exact .inr ⟨_, rfl, (ite_eq_or_eq _ _ _).symm⟩
  | load ch lane =>
    rcases execLoad_next h with ⟨_, rfl⟩ | ⟨_, _, rfl⟩ | ⟨_, _, _, _, rfl⟩ | ⟨_, _, _, _, _, _, rfl⟩
    · exact .inl rfl
    · exact .inl rfl
    · exact .inl rfl
    · exact .inr ⟨_, rfl, setWidth_toNat_lt _⟩
  | adv =>
    rcases execAdv_next h with ⟨_, rfl⟩ | ⟨_, _, _, rfl⟩ | ⟨_, _, _, rfl⟩
    · exact .inl rfl
    · exact .inl rfl
    · exact .inr ⟨_, rfl, rfl⟩
  | step =>
    rcases execStep_next h with ⟨_, rfl⟩ | ⟨_, _, rfl⟩
    · exact .inl rfl
    · exact .inr ⟨_, rfl, rfl⟩
  | getsc ch =>
    rcases execGetsc_next h with ⟨_, rfl⟩ | ⟨_, _, rfl⟩
    · exact .inl rfl
    · exact .inr ⟨_, rfl, setWidth_toNat_lt _⟩
  | loadlo ch =>
    rcases execLoadlo_next h with ⟨_, rfl, _⟩ | ⟨_, _, _, _, _, _, _, rfl⟩
    · exact .inl rfl
    · exact .inr ⟨_, rfl, setWidth_toNat_lt _⟩
  | loadbr ch =>
    rcases execLoadbr_next h with ⟨_, rfl, _⟩ | ⟨_, _, _, _, _, _, _, rfl⟩
    · exact .inl rfl
    · exact .inr ⟨_, rfl, setWidth_toNat_lt _⟩
  | cfgw reg v =>
    rcases execCfgw_next h with ⟨rfl, _⟩ | ⟨_, _, _, _, rfl⟩
    · exact .inl rfl
    · exact .inr ⟨_, rfl, rfl⟩
  | cfgr reg =>
    rcases execCfgr_next h with ⟨_, rfl⟩ | ⟨_, _, _, rfl⟩ | ⟨r, v, hr, hv, rfl⟩
    · exact .inl rfl
    · exact .inl rfl
    · exact .inr ⟨v, rfl, r, hr, hv⟩

/-- What is still to be presented is not seen by an answer. -/
theorem answerForm_inputs {s : State} {rest : List Input} {i : Instr} {v : Word}
    (h : AnswerForm { s with inputs := rest } i v) : AnswerForm s i v := by
  cases i with
  | cfgr reg =>
    obtain ⟨g, hg, hv⟩ := h
    exact ⟨g, hg, hv⟩
  | _ => exact h

/-- Settles O25: fault entry answers the code of its cause (`step_command_next`), and a command that does not fault
answers in its form (`exec_next_answerForm`). -/
theorem everyCommandAnswersInItsForm : Obligations.EveryCommandAnswersInItsForm := by
  intro s t c rest hp hs ht
  rcases step_command_next hs ht with ⟨x, rfl, hx⟩ | ⟨i, u, w, a, hi, _, rfl⟩
  · exact ⟨_, rfl, fun _ => ⟨x, hx hp, rfl⟩, nofun⟩
  · rw [step_of_decode_ok hs hi] at ht
    rcases exec_next_answerForm ht with herr | ⟨v, hv, hform⟩
    · simp at herr
    · exact ⟨_, hv, nofun, fun _ => ⟨i, hi, answerForm_inputs hform⟩⟩

/-! ### The channel-order codes -/

theorem Channel.forall_iff {P : Channel → Prop} : (∀ c, P c) ↔ P .red ∧ P .green ∧ P .blue :=
  ⟨fun h => ⟨h _, h _, h _⟩, fun ⟨hr, hg, hb⟩ c => by cases c <;> assumption⟩

/-- Settles O9: with the channels written out, the codes are compared one by one. -/
theorem legalOrderCodesArePermutations : Obligations.LegalOrderCodesArePermutations := by
  refine ⟨?_, fun n => by cases n <;> decide, by decide⟩
  simp only [Channel.forall_iff]
  decide

/-! ### The pseudo-instructions -/

/-- `CFGW` of a named register: its number stands in the low byte of the word. -/
theorem encode_cfgwReg (r : Reg) (v : Word) :
    encode (cfgwReg r v) = ⟨0x9000#16 ||| (BitVec.ofNat 8 r.number).setWidth 16, v⟩ :=
  congrArg (Command.mk · v) (encode_cfgw_cmd _ v)

/-- Settles O58: a register by name is its number in the low byte, and the other words are evaluated. -/
theorem pseudoInstructionsExpandToTheirWords : Obligations.PseudoInstructionsExpandToTheirWords := by
  refine ⟨fun b n => ?_, fun r g b => ?_, fun n => ?_, by decide⟩ <;>
    simp [Pseudo.expand, encode_cfgwReg, Reg.number]

end Sys2Proof.Machine
end

section
/-! PROOFS. Construction (40_construct.md R100 to R104): the reversed phase and its multiples, the bounds of the
dither values, and what `INIT` answers in full, with the statements about them settled. -/

namespace Sys2Proof.Machine

/-! ### The phase -/

/-- Reversing twice puts every bit back in its place. -/
theorem bitrev8_bitrev8 (x : Byte) : bitrev8 (bitrev8 x) = x := by
  apply BitVec.eq_of_getLsbD_eq
  intro i hi
  rw [bitrev8_getLsbD _ hi, bitrev8_getLsbD _ (by omega), show 7 - (7 - i) = i by omega]

theorem bitrev8_injective : Function.Injective bitrev8 :=
  Function.LeftInverse.injective bitrev8_bitrev8

theorem toNat_lt_two_pow_iff {w k : Nat} {x : BitVec w} :
    x.toNat < 2 ^ k ↔ ∀ i, k ≤ i → x.getLsbD i = false := by
  simp only [← BitVec.testBit_toNat]
  refine ⟨fun h i hi => Nat.testBit_lt_two_pow ?_, Nat.lt_pow_two_of_testBit _⟩
  exact Nat.lt_of_lt_of_le h (Nat.pow_le_pow_right (by decide) hi)

theorem two_pow_dvd_toNat_iff {w m : Nat} {x : BitVec w} :
    2 ^ m ∣ x.toNat ↔ ∀ i, i < m → x.getLsbD i = false := by
  simp only [← BitVec.testBit_toNat, Nat.dvd_iff_mod_eq_zero]
  constructor
  · intro h i hi
    have hbit := Nat.testBit_mod_two_pow x.toNat m i
    simpa [h, hi] using hbit.symm
  · intro h
    apply Nat.zero_of_testBit_eq_false
    intro i
    simpa [Nat.testBit_mod_two_pow] using h i

/-- The reversal exchanges the bits from `K` up, which are 0 in a value below `2^K`, with the low `8-K` bits, which
are 0 in a multiple of `2^(8-K)`. -/
theorem two_pow_dvd_bitrev8_iff {k : Nat} (hk : k ≤ 8) {x : Byte} :
    2 ^ (8 - k) ∣ (bitrev8 x).toNat ↔ x.toNat < 2 ^ k := by
  rw [two_pow_dvd_toNat_iff, toNat_lt_two_pow_iff]
  constructor
  · intro h i hi
    rcases Nat.lt_or_ge i 8 with hi8 | hi8
    · have hbit := h (7 - i) (by omega)
      rwa [bitrev8_getLsbD _ (by omega), show 7 - (7 - i) = i by omega] at hbit
    · exact BitVec.getLsbD_of_ge x i hi8
  · intro h i hi
    rw [bitrev8_getLsbD _ (by omega)]
    exact h (7 - i) (by omega)

/-- There are `2^K` multiples of `2^(8-K)` in a byte. -/
theorem mul_two_pow_lt_iff {k : Nat} (hk : k ≤ 8) {j : Nat} : j * 2 ^ (8 - k) < 256 ↔ j < 2 ^ k := by
  have hsplit : 256 = 2 ^ k * 2 ^ (8 - k) := by rw [← Nat.pow_add, Nat.add_sub_cancel' hk]
  rw [hsplit, Nat.mul_lt_mul_right (Nat.two_pow_pos _)]

/-- A counter value below `2^K` is not changed by the mask. -/
theorem ditherPhase_of_lt {k : Nat} (hk : k ≤ 8) {r : Byte} (h : r.toNat < 2 ^ k) : ditherPhase k r = bitrev8 r := by
  have hmask : r &&& BitVec.ofNat 8 (2 ^ k - 1) = r :=
    BitVec.eq_of_toNat_eq (by rw [mask_toNat hk, Nat.mod_eq_of_lt h])
  rw [ditherPhase, hmask]

theorem ditherPhase_eq_mul {k : Nat} (hk : k ≤ 8) (r : Byte) :
    ∃ j, j < 2 ^ k ∧ (ditherPhase k r).toNat = j * 2 ^ (8 - k) := by
  have hmask : (r &&& BitVec.ofNat 8 (2 ^ k - 1)).toNat < 2 ^ k := by
    rw [mask_toNat hk]
    exact Nat.mod_lt _ (Nat.two_pow_pos k)
  obtain ⟨j, hj⟩ := (two_pow_dvd_bitrev8_iff hk).2 hmask
  have hval : (ditherPhase k r).toNat = j * 2 ^ (8 - k) := hj.trans (Nat.mul_comm _ _)
  exact ⟨j, (mul_two_pow_lt_iff hk).1 (hval ▸ byte_toNat_lt _), hval⟩

theorem exists_bitrev8_eq_mul {k : Nat} (hk : k ≤ 8) {j : Nat} (hj : j < 2 ^ k) :
    ∃ x : Byte, x.toNat < 2 ^ k ∧ (bitrev8 x).toNat = j * 2 ^ (8 - k) := by
  have hval : (BitVec.ofNat 8 (j * 2 ^ (8 - k))).toNat = j * 2 ^ (8 - k) :=
    Nat.mod_eq_of_lt ((mul_two_pow_lt_iff hk).2 hj)
  refine ⟨bitrev8 (BitVec.ofNat 8 (j * 2 ^ (8 - k))), (two_pow_dvd_bitrev8_iff hk).1 ?_, ?_⟩ <;>
    rw [bitrev8_bitrev8, hval]
  exact Nat.dvd_mul_left _ _

/-- Settles O30: the reversal carries the values below `2^K` one to one onto the multiples of `2^(8-K)`
(`two_pow_dvd_bitrev8_iff`, `bitrev8_injective`). -/
theorem ditherPhaseVisitsEveryMultipleOnce : Obligations.DitherPhaseVisitsEveryMultipleOnce := by
  refine fun k hk => ⟨ditherPhase_eq_mul hk, fun j hj => ?_⟩
  obtain ⟨x, hx, hval⟩ := exists_bitrev8_eq_mul hk hj
  refine ⟨x.toNat, hx, ?_, fun q hq hphase => ?_⟩
  · rw [BitVec.ofNat_toNat, BitVec.setWidth_eq, ditherPhase_of_lt hk hx, hval]
  · have hqval : (BitVec.ofNat 8 q).toNat = q :=
      Nat.mod_eq_of_lt (Nat.lt_of_lt_of_le hq (Nat.pow_le_pow_right (by decide) hk))
    rw [ditherPhase_of_lt hk (hqval.symm ▸ hq), ← hval] at hphase
    rw [← bitrev8_injective (BitVec.eq_of_toNat_eq hphase), hqval]

/-! ### The increment and the initial offset -/

/-- From the scale 2 on, the quotient is at most 128, so the increment fits its register. -/
theorem ditherIncrement_of_two_le {s : Byte} (h : 2 ≤ s.toNat) :
    (ditherIncrement s).toNat = 256 / s.toNat + 1 ∧ 256 / s.toNat ≤ 128 := by
  have hquot : 256 / s.toNat ≤ 256 / 2 := Nat.div_le_div_left h (by decide)
  refine ⟨?_, hquot⟩
  rw [ditherIncrement_toNat, if_neg (by omega), Nat.mod_eq_of_lt (by omega)]

/-- Settles O32: the increment by `ditherIncrement_of_two_le`, the offset by `ditherOffset_le`; at the scale 1 the
value 257 wraps to 1. -/
theorem initialOffsetIsAtMostTheIncrement : Obligations.InitialOffsetIsAtMostTheIncrement := by
  refine ⟨fun s hs => ?_, by decide, by decide, fun f q e => BitVec.le_def.1 (ditherOffset_le f q e)⟩
  obtain ⟨hval, hquot⟩ := ditherIncrement_of_two_le hs
  exact ⟨hval, by omega⟩

/-- The eight frames of 95_test_vectors.md V5 (`F = 0`, `K = 3`, scale 239, raw 241, an even pixel): with the increment 2
the initial offset is 0 in every one, so no frame lifts the sample. -/
theorem ditheredSamples_v5 :
    ((List.range 8).map fun r =>
      (scale8 false
        (qadd8 241#8 (ditherOffset false (ditherPhase 3 (BitVec.ofNat 8 (r + 1))) (ditherIncrement 239#8)))
        239#8).toNat) = List.replicate 8 224 := by
  decide

/-- Settles O59: every one of the eight samples is 224 (`ditheredSamples_v5`), where `241 * 239 / 255` is above 225. -/
theorem ditherAverageIsNotWithinOneBit : Obligations.DitherAverageIsNotWithinOneBit :=
  ⟨(congrArg List.sum ditheredSamples_v5).trans (List.sum_replicate_nat ..), by decide⟩

/-! ### What `INIT` answers -/

theorem exec_init_of_fault {s : State} {x : Cause} (h : initCheck s = some x) :
    exec .init s = trap .init x s := by
  rw [exec, execInit, h]

/-- `INIT` with a configuration that passes its checks, in full (R100). -/
theorem exec_init_of_legal {s : State} (h : initCheck s = none) :
    exec .init s = .next (answered 0#32 none { s with frame := initFrame s, inst := some (initInst s) }) := by
  rw [exec, execInit, h]
  rfl

theorem initCheck_of_illegalOrder {s : State} (h : orderLegal s.cfg.order = false) :
    initCheck s = some .configOrder := by
  simp [initCheck, h]

/-- The reserved brightness mode is looked at only after the order has passed (R101). -/
theorem initCheck_of_reservedMode {s : State} (ho : orderLegal s.cfg.order = true) (he : s.params.ext = true)
    (hm : brmode s.cfg.extctl = 3#2) : initCheck s = some .configExt := by
  simp [initCheck, ho, he, hm]

/-- Settles O29: the failed check decides the cause, and fault entry is the whole next state. -/
theorem initRefusesIllegalConfiguration : Obligations.InitRefusesIllegalConfiguration :=
  fun _ => ⟨fun ho => exec_init_of_fault (initCheck_of_illegalOrder ho),
    fun ho he hm => exec_init_of_fault (initCheck_of_reservedMode ho he hm)⟩

theorem initInst_xlo (s : State) : (initInst s).xlo = (s.params.ext && loen s.cfg.extctl) := by
  cases h : s.params.ext <;> simp [initInst, h]

section Undithered

variable {s : State} (hd : s.cfg.dmode = 0#1)
include hd

theorem initFrame_undithered : initFrame s = s.frame := by
  simp [initFrame, hd]

theorem initIncrement_undithered : initIncrement s = fun _ => 0#8 := by
  funext c
  simp [initIncrement, hd]

theorem initOffset_undithered : initOffset s = fun _ => 0#8 := by
  funext c
  simp [initOffset, hd]

/-- With `DMODE = 0` the dither values are 0; the option bit is written as the product of its two conditions. -/
theorem initInst_undithered :
    initInst s = { initInst s with
      d := ⟨0#8, 0#8, 0#8⟩, e := ⟨0#8, 0#8, 0#8⟩, xlo := s.params.ext && loen s.cfg.extctl } := by
  rw [← initInst_xlo]
  simp only [initInst, initIncrement_undithered hd, initOffset_undithered hd, Triplet.tabulate]

end Undithered

/-- Settles O27: `INIT` passes its checks (`exec_init_of_legal`), and with `DMODE = 0` neither the counter moves nor
a dither value is set. -/
theorem initConstructsAnUnditheredInstance : Obligations.InitConstructsAnUnditheredInstance := by
  intro s ho hm hd
  rw [exec_init_of_legal (initCheck_eq_none.2 ⟨ho, hm⟩), initFrame_undithered hd, initInst_undithered hd]
  rfl

section Dithered

variable {s : State} (hd : s.cfg.dmode = 1#1)
include hd

theorem initFrame_dithered : initFrame s = s.frame + 1#8 :=
  if_pos hd

theorem initIncrement_dithered (c : Channel) :
    initIncrement s c = ditherIncrement (scaleField s.cfg.scale c) :=
  if_pos hd

theorem initOffset_dithered (c : Channel) :
    initOffset s c =
      ditherOffset s.params.scale8Fixed (ditherPhase s.params.k (s.frame + 1#8)) (initIncrement s c) :=
  if_pos hd

end Dithered

/-- Settles O28: as O27, with the increment and the offset of each channel by `ditherIncrement_toNat` and
`ditherOffset_toNat`. -/
theorem initConstructsADitheredInstance : Obligations.InitConstructsADitheredInstance := by
  intro s ho hm hd
  refine ⟨initInst s, ?_, rfl, rfl, rfl, rfl, initInst_xlo s, rfl, rfl, rfl, fun c => ?_⟩
  · rw [exec_init_of_legal (initCheck_eq_none.2 ⟨ho, hm⟩), initFrame_dithered hd]
    rfl
  · have hs : (initInst s).s.get c = scaleField s.cfg.scale c := Triplet.get_tabulate _ c
    have he : (initInst s).e.get c = initIncrement s c := Triplet.get_tabulate _ c
    have hoff : (initInst s).d.get c = initOffset s c := Triplet.get_tabulate _ c
    rw [hs, he, hoff]
    refine ⟨rfl, ?_, ?_⟩
    · rw [initIncrement_dithered hd, ditherIncrement_toNat]
    · rw [initOffset_dithered hd, ditherOffset_toNat, ditherPhase]

end Sys2Proof.Machine
end

section
/-! PROOFS. The pull commands (41_pull.md R110 to R118): what `HAS`, `LOAD`, `ADV`, `STEP` and `GETSC` answer in full once
their checks have passed, and the byte of a pixel that a channel-order code selects, with the statements about them
settled. -/

namespace Sys2Proof.Machine

/-! ### Commands that pass their checks -/

theorem onInst_of_wellFormed {i : Instr} {s : State} {x : Inst} (body : Inst → Result) (hx : s.inst = some x)
    (hw : i.wellFormed s.params = true) : onInst i s body = body x :=
  (onInst_some hx).trans (if_pos hw)

/-- `LOAD` of a lane of the block with a remaining pixel and a held byte, in full (R112). -/
theorem exec_load_of_held {s : State} {x : Inst} {ch : Channel} {lane : BitVec 4} {raw : Byte}
    (hx : s.inst = some x) (hl : lane.toNat < s.params.nlanes) (hr : x.rem ≠ 0#16)
    (hm : memoryRead s.mem (loadAddr s.params x ch lane).toNat = some raw) :
    exec (.load ch lane) s =
      .next (answered ((sampleOf s.params x ch raw).setWidth 32) (some (loadAddr s.params x ch lane)) s) := by
  have hw : (Instr.load ch lane).wellFormed s.params = true := decide_eq_true hl
  rw [exec, execLoad, onInst_of_wellFormed _ hx hw, onPixel_of_pixel _ hr, readByte_some hm]
  rfl

/-- `ADV` with a remaining pixel, in full (R114). -/
theorem exec_adv_of_pixel {s : State} {x : Inst} (hx : s.inst = some x) (hr : x.rem ≠ 0#16) :
    exec .adv s = .next (answered 0#32 none { s with inst := some (advInst s.params x) }) := by
  rw [exec, execAdv, onInst_of_wellFormed _ hx rfl, onPixel_of_pixel _ hr]
  rfl

/-! ### `HAS` and `GETSC` -/

/-- Widening `REM` to the 32 bits of `n` keeps its value, so the two comparisons agree. -/
theorem le_rem_setWidth_iff (n : Word) (r : BitVec 16) : n ≤ r.setWidth 32 ↔ n.toNat ≤ r.toNat := by
  rw [BitVec.le_def, BitVec.toNat_setWidth_of_le (by decide)]

/-- Settles O33: the one check passes, and the comparison is `le_rem_setWidth_iff`. -/
theorem hasAnswersWhetherPixelsRemain : Obligations.HasAnswersWhetherPixelsRemain := by
  intro s x n hx
  simp only [le_rem_setWidth_iff]
  rw [exec, execHas, onInst_of_wellFormed _ hx rfl]
  rfl

/-- Settles O40: the one check passes, and `REM` is not looked at. -/
theorem getscAnswersTheLatchedScale : Obligations.GetscAnswersTheLatchedScale := by
  intro s x ch hx
  rw [exec, execGetsc, onInst_of_wellFormed _ hx rfl]
  rfl

/-! ### `ADV` and `STEP` -/

/-- With a pixel remaining the subtraction does not borrow. -/
theorem rem_sub_one {r : BitVec 16} (hr : r ≠ 0#16) : r - 1#16 = BitVec.ofNat 16 (r.toNat - 1) := by
  have hpos : r.toNat ≠ 0 := fun h0 => hr (BitVec.eq_of_toNat_eq h0)
  have hle : 1 ≤ r.toNat := Nat.one_le_iff_ne_zero.2 hpos
  rw [← BitVec.ofNat_sub_ofNat_of_le _ _ (by decide) hle, BitVec.ofNat_toNat, BitVec.setWidth_eq]

/-- Settles O37: `ADV` passes its checks (`exec_adv_of_pixel`), and `REM` counts down by `rem_sub_one`. -/
theorem advMovesTheCursorOnePixel : Obligations.AdvMovesTheCursorOnePixel := by
  intro s x hx hr
  rw [exec_adv_of_pixel hx hr, advInst, rem_sub_one hr]
  rfl

/-- Settles O38: the next state is `exec_step_of_inst`; the subtraction is exact where `D <= E` (`ditherWf_iff`). -/
theorem stepTogglesTheDitherOffsets : Obligations.StepTogglesTheDitherOffsets :=
  fun _ _ hx => ⟨exec_step_of_inst hx, fun hwf c => BitVec.toNat_sub_of_le (ditherWf_iff.1 hwf c)⟩

/-! ### `LOAD` -/

theorem sampleOf_undithered {p : Params} {x : Inst} {ch : Channel} (hd : x.d.get ch = 0#8) (raw : Byte) :
    sampleOf p x ch raw = scale8 p.scale8Fixed raw (x.s.get ch) := by
  rw [sampleOf, hd, qadd8_zero]

/-- R113: no dither, `F = 1` and the scale 255 leave the stored byte as it is. -/
theorem sampleOf_identity {p : Params} {x : Inst} {ch : Channel} (hd : x.d.get ch = 0#8)
    (hs : x.s.get ch = 255#8) (hf : p.scale8Fixed = true) (raw : Byte) : sampleOf p x ch raw = raw := by
  rw [sampleOf_undithered hd, hs, hf, scale8_true_max]

/-- Settles O34: `LOAD` passes its checks (`exec_load_of_held`); the address and the sample are those of the model. -/
theorem loadAnswersTheDitheredScaledSample : Obligations.LoadAnswersTheDitheredScaledSample := by
  rintro s x ch lane _ raw hx hl hr rfl hm
  exact exec_load_of_held hx hl hr hm

/-- Settles O35: the answer is the sample, whose value is `scale8_toNat` without dither. -/
theorem loadWithoutDitherIsPlainScaling : Obligations.LoadWithoutDitherIsPlainScaling := by
  intro s x ch lane raw hx hl hr hd hm
  have hwide : ((sampleOf s.params x ch raw).setWidth 32).toNat = (sampleOf s.params x ch raw).toNat :=
    BitVec.toNat_setWidth_of_le (by decide)
  refine ⟨_, _, exec_load_of_held hx hl hr hm, rfl, ?_, fun hf hs => ?_⟩
  · rw [hwide, sampleOf_undithered hd, scale8_toNat]
  · rw [hwide, sampleOf_identity hd hs hf]

/-- R90, R91: the byte of a pixel that the code of its order selects for a channel is the channel's own. -/
theorem pixelBytes_get_ordField (v : Triplet Byte) (n : OrderName) (ch : Channel) :
    (Channel.ofBits (ordField n.code ch)).map (pixelBytes v n).get = some (v.get ch) := by
  cases n <;> cases ch <;> rfl

/-- Settles O36: `ORD` selects the byte `p` that holds the channel (`pixelBytes_get_ordField`), which is at the address
`LOAD` reads, and the sample is that byte (`sampleOf_identity`). -/
theorem loadRecoversPermutedChannels : Obligations.LoadRecoversPermutedChannels := by
  intro s x n v ch lane hx hl hr hord hd hs hf hmem
  obtain ⟨p, hp, hbyte⟩ := Option.map_eq_some_iff.1 (pixelBytes_get_ordField v n ch)
  have hread : memoryRead s.mem (loadAddr s.params x ch lane).toNat = some (v.get ch) := by
    rw [loadAddr, hord, ← Channel.bits_of_ofBits hp, hmem p, hbyte]
  refine ⟨_, exec_load_of_held hx hl hr hread, ?_⟩
  rw [sampleOf_identity hd hs hf]
  rfl

end Sys2Proof.Machine
end

section
/-! PROOFS. The extended-plane commands (42_extended.md R130 to R132): what `LOADLO` and `LOADBR` answer in full once
their checks have passed, with the statements about them settled. -/

namespace Sys2Proof.Machine

/-- `LOADLO` with its plane enabled, a remaining pixel and a held byte, in full (R131). -/
theorem exec_loadlo_of_held {s : State} {x : Inst} {ch : Channel} {b : Byte} (hx : s.inst = some x)
    (he : s.params.ext = true) (hlo : x.xlo = true) (hr : x.rem ≠ 0#16)
    (hm : memoryRead s.mem (loadloAddr s.params x ch).toNat = some b) :
    exec (.loadlo ch) s = .next (answered (b.setWidth 32) (some (loadloAddr s.params x ch)) s) := by
  have hw : (Instr.loadlo ch).wellFormed s.params = true := he
  rw [exec, execLoadlo, onInst_of_wellFormed _ hx hw, if_pos hlo, onPixel_of_pixel _ hr, readByte_some hm]
  rfl

/-- `LOADBR` with a brightness plane enabled, a remaining pixel and a held byte, in full (R132). -/
theorem exec_loadbr_of_held {s : State} {x : Inst} {ch : Channel} {b : Byte} (hx : s.inst = some x)
    (he : s.params.ext = true) (hbr : x.xbr ≠ 0#2) (hr : x.rem ≠ 0#16)
    (hm : memoryRead s.mem (loadbrAddr x ch).toNat = some b) :
    exec (.loadbr ch) s =
      .next (answered ((b.extractLsb' 0 5).setWidth 32) (some (loadbrAddr x ch)) s) := by
  have hw : (Instr.loadbr ch).wellFormed s.params = true := he
  rw [exec, execLoadbr, onInst_of_wellFormed _ hx hw, if_neg hbr, onPixel_of_pixel _ hr, readByte_some hm]
  rfl

/-- The five brightness bits of a stored byte, as a remainder. -/
theorem brightnessBits_eq (b : Byte) : (b.extractLsb' 0 5).setWidth 32 = BitVec.ofNat 32 (b.toNat % 32) := by
  rw [← BitVec.ofNat_toNat, BitVec.extractLsb'_toNat, Nat.shiftRight_zero]

/-- Either brightness mode enables a plane. -/
theorem xbr_ne_zero_of_mode {m : BitVec 2} (h : m = 1#2 ∨ m = 2#2) : m ≠ 0#2 := by
  rcases h with rfl | rfl <;> decide

/-- Settles O41: `LOADLO` passes its checks (`exec_loadlo_of_held`); the address is that of the model. -/
theorem loadloAnswersTheStoredLowByte : Obligations.LoadloAnswersTheStoredLowByte := by
  rintro s x ch _ b hx he hlo hr rfl hm
  exact exec_loadlo_of_held hx he hlo hr hm

/-- Settles O42: `LOADBR` passes its checks in both modes (`exec_loadbr_of_held`), plane 0 being that of `red`; the
answer is `brightnessBits_eq`. -/
theorem loadbrAnswersTheStoredBrightness : Obligations.LoadbrAnswersTheStoredBrightness := by
  rintro s x ch _ b hx he hmode hr rfl hm
  rw [← brightnessBits_eq]
  exact exec_loadbr_of_held hx he (xbr_ne_zero_of_mode hmode) hr hm

end Sys2Proof.Machine
end

section
/-! PROOFS. Register access (43_config.md R140 to R143): what the other registers and the written one read as after
`CFGW`, and what `CFGR` answers, with the statements about them settled. -/

namespace Sys2Proof.Machine

/-! ### The bits a register implements -/

/-- A word under the mask of its low `k` bits, as a number. -/
theorem and_lowMask_toNat (v : Word) {k : Nat} (hk : k ≤ 32) :
    (v &&& BitVec.ofNat 32 (2 ^ k - 1)).toNat = v.toNat % 2 ^ k := by
  have hle : 2 ^ k ≤ 2 ^ 32 := Nat.pow_le_pow_right (by decide) hk
  have hmask : 2 ^ k - 1 < 2 ^ 32 := Nat.lt_of_lt_of_le (Nat.sub_one_lt (Nat.two_pow_pos k).ne') hle
  rw [BitVec.toNat_and, BitVec.toNat_ofNat, Nat.mod_eq_of_lt hmask, Nat.and_two_pow_sub_one_eq_mod]

/-- A register that stores `k` bits reads as the written word without its reserved bits. -/
theorem setWidth_setWidth_eq_and (v : Word) {k : Nat} (hk : k ≤ 32) :
    (v.setWidth k).setWidth 32 = v &&& BitVec.ofNat 32 (2 ^ k - 1) := by
  apply BitVec.eq_of_toNat_eq
  rw [and_lowMask_toNat v hk, BitVec.toNat_setWidth_of_le hk, BitVec.toNat_setWidth]

/-- No address is wider than a word (R8). -/
theorem aw_le_of_wf {p : Params} (hp : p.wf = true) : p.aw ≤ 32 := by
  simp only [Params.wf, Bool.and_eq_true, decide_eq_true_eq] at hp
  omega

/-- An address register stores bits `[AW-1:0]` of the written word (R24). -/
theorem addrOf_toNat_eq_and (v : Word) {aw : Nat} (haw : aw ≤ 32) :
    addrOf aw v.toNat = v &&& BitVec.ofNat 32 (2 ^ aw - 1) := by
  apply BitVec.eq_of_toNat_eq
  rw [and_lowMask_toNat v haw, addrOf_toNat,
    Nat.mod_eq_of_lt (Nat.lt_of_le_of_lt (Nat.mod_le _ _) v.isLt)]

/-! ### Reads after a write to the configuration -/

section Written

variable {s : State} {c : ConfigRegs} {r : Reg} {v : Word}

/-- The written register reads as the bits it implements (R141). -/
theorem readReg_writeCfg_self (haw : s.params.aw ≤ 32) (h : writeCfg s.params s.cfg v r = some c) :
    readReg { s with cfg := c } r = some (v &&& implementedBits s.params r) := by
  have haddr := addrOf_toNat_eq_and v haw
  cases r <;> cases h
  case base | lobase => exact congrArg some haddr
  case npix => exact congrArg some (setWidth_setWidth_eq_and v (k := 16) (by decide))
  case scale => exact congrArg some (setWidth_setWidth_eq_and v (k := 24) (by decide))
  case dmode => exact congrArg some (setWidth_setWidth_eq_and v (k := 1) (by decide))
  case order => exact congrArg some (setWidth_setWidth_eq_and v (k := 6) (by decide))
  case extctl => exact congrArg some (setWidth_setWidth_eq_and v (k := 3) (by decide))
  case brbase i => simp only [readReg, Triplet.get_set, if_true, haddr, implementedBits]
  case loff l => simp only [readReg, laneOffset_set, if_true, haddr, implementedBits]

/-- `STATUS` shows nothing of the configuration (R40). -/
@[simp] theorem statusWord_setCfg (s : State) (c : ConfigRegs) :
    statusWord { s with cfg := c } = statusWord s := rfl

/-- A write changes one register, and one element of an indexed one. -/
theorem readReg_writeCfg_of_ne {q : Reg} (h : writeCfg s.params s.cfg v r = some c) (hq : q ≠ r) :
    readReg { s with cfg := c } q = readReg s q := by
  cases r <;> cases h
  case brbase i =>
    cases q with
    | brbase j =>
      have hij : i ≠ j := fun hij => hq (congrArg Reg.brbase hij.symm)
      simp only [readReg, Triplet.get_set, if_neg hij]
    | _ => rfl
  case loff l =>
    cases q with
    | loff k =>
      have hlk : l ≠ k := fun hlk => hq (congrArg Reg.loff hlk.symm)
      simp only [readReg, laneOffset_set, if_neg hlk]
    | _ => rfl
  case base | npix | scale | dmode | order | extctl | lobase => cases q <;> simp [readReg] at hq ⊢

end Written

/-- A configuration register can be written, in either phase, and the write touches the configuration only. -/
theorem exists_writeCfg_of_isConfigReg {s : State} {r : Reg} (v : Word) (h : isConfigReg r = true) :
    ∃ c, writeCfg s.params s.cfg v r = some c ∧ writeReg s r v = some { s with cfg := c } := by
  have hlt : r.number < 0x20 := of_decide_eq_true h
  have hwritable : writeReg s r v ≠ none := fun hnone => by
    have := writeReg_eq_none_iff.1 hnone
    omega
  obtain ⟨t, ht⟩ := Option.ne_none_iff_exists'.1 hwritable
  rcases writeReg_some ht with ⟨rfl, _⟩ | ⟨_, c, hc, rfl⟩
  · exact absurd hlt (by decide)
  · exact ⟨c, hc, ht⟩

/-- Settles O48: the write succeeds (`exists_writeCfg_of_isConfigReg`), and the reads after it are those of
`readReg_writeCfg_self` and `readReg_writeCfg_of_ne`. -/
theorem cfgwStoresTheImplementedBits : Obligations.CfgwStoresTheImplementedBits := by
  intro s n r v hp hr hcfg
  obtain ⟨c, hc, hw⟩ := exists_writeCfg_of_isConfigReg (s := s) v hcfg
  exact ⟨c, exec_cfgw_write hr hw, readReg_writeCfg_self (aw_le_of_wf hp) hc,
    fun q hq => readReg_writeCfg_of_ne hc hq⟩

/-! ### `CFGW` of `STATUS` -/

/-- With bit 0 clear the write has no effect but its response (R142). -/
theorem exec_cfgw_status_keep {s : State} {v : Word} (hv : v.getLsbD 0 = false) :
    exec (.cfgw 0x20#8 v) s = .next (respond 0#32 s) :=
  exec_cfgw_write (r := .status) (regOf_eq_some_iff.2 ⟨rfl, rfl⟩) 
    (by rw [writeReg, if_pos rfl, hv, if_neg Bool.false_ne_true])

/-- Settles O49: bit 0 of the value decides between `exec_cfgw_status_clear` and `exec_cfgw_status_keep`. -/
theorem cfgwOfStatusClearsTheFaultRecord : Obligations.CfgwOfStatusClearsTheFaultRecord :=
  fun _ _ => ⟨exec_cfgw_status_clear, exec_cfgw_status_keep⟩

/-! ### `CFGR` -/

/-- `CFGR` of a register that holds no value takes `NoInstance` (R143, R163). -/
theorem exec_cfgr_noInstance {s : State} {n : BitVec 8} {r : Reg} (h : regOf s.params n = some r)
    (hv : readReg s r = none) : exec (.cfgr n) s = trap (.cfgr n) .noInstance s := by
  simp only [exec, execCfgr, h, hv]

/-- A register holds a value while an instance exists, and outside the instance view always (R21, R41). -/
theorem readReg_isSome_iff {s : State} {r : Reg} :
    (readReg s r).isSome = true ↔ s.inst.isSome = true ∨ r.number < 0x30 := by
  rcases Nat.lt_or_ge r.number 0x30 with hlt | hge
  · simp only [readReg_isSome_of_lt s r hlt, hlt, or_true]
  · simp only [readReg_isSome_of_ge s r hge, hge.not_gt, or_false]

/-- Settles O50: whether the register holds a value (`readReg_isSome_iff`) decides between its value and
`NoInstance`. -/
theorem cfgrAnswersTheRegister : Obligations.CfgrAnswersTheRegister := by
  refine fun s n r hr => ⟨fun hheld => ?_, fun hidle hview => ?_⟩
  · obtain ⟨v, hv⟩ := Option.isSome_iff_exists.1 (readReg_isSome_iff.2 hheld)
    exact ⟨v, hv, exec_cfgr_read hr hv⟩
  · have hnone : readReg s r = none := by
      rw [← Option.isNone_iff_eq_none, ← Option.isSome_eq_false_iff, readReg_isSome_of_ge s r hview, hidle,
        Option.isSome_none]
    rw [exec_cfgr_noInstance hr hnone, ← encode_cfgr_cmd]
    rfl

end Sys2Proof.Machine
end

section
/-! PROOFS. The combined adjustment (46_host_functions.md R151, R152) and the flat brightness (R153), with the
statements about them settled. -/

namespace Sys2Proof.Machine

/-! ### One channel -/

/-- The largest product of R151, `256 * 256 * 255`: the clamp never acts because of this bound. -/
theorem adjust_product_le (b corr temp : Byte) :
    (corr.toNat + 1) * (temp.toNat + 1) * b.toNat ≤ 16711680 :=
  have hcorr : corr.toNat + 1 ≤ 256 := byte_toNat_lt corr
  have htemp : temp.toNat + 1 ≤ 256 := byte_toNat_lt temp
  have hb : b.toNat ≤ 255 := Nat.le_of_lt_succ (byte_toNat_lt b)
  Nat.mul_le_mul (Nat.mul_le_mul hcorr htemp) hb

theorem adjust_quotient_le (b corr temp : Byte) :
    (corr.toNat + 1) * (temp.toNat + 1) * b.toNat / 65536 ≤ 255 :=
  Nat.div_le_div_right (c := 65536) (adjust_product_le b corr temp)

/-- The channel without its clamp. -/
@[simp] theorem adjustChannel_toNat (b corr temp : Byte) :
    (adjustChannel b corr temp).toNat = (corr.toNat + 1) * (temp.toNat + 1) * b.toNat / 65536 := by
  have hle := adjust_quotient_le b corr temp
  rw [adjustChannel, Nat.min_eq_right hle, BitVec.toNat_ofNat, Nat.mod_eq_of_lt (Nat.lt_succ_of_le hle)]

/-- Correction and temperature play the same part in R151. -/
theorem adjustChannel_comm (b corr temp : Byte) : adjustChannel b corr temp = adjustChannel b temp corr := by
  rw [adjustChannel, adjustChannel, Nat.mul_comm (corr.toNat + 1)]

/-- With a zero correction the product is at most `256 * 255`, below the divisor. -/
theorem adjustChannel_corr_zero (b temp : Byte) : adjustChannel b 0#8 temp = 0#8 := by
  have hlt : (temp.toNat + 1) * b.toNat < 65536 :=
    Nat.mul_lt_mul_of_le_of_lt (byte_toNat_lt temp) (byte_toNat_lt b) (by decide)
  apply BitVec.eq_of_toNat_eq
  rw [adjustChannel_toNat, BitVec.toNat_ofNat, Nat.zero_mod, Nat.zero_add, Nat.one_mul, Nat.div_eq_of_lt hlt]

theorem adjustChannel_temp_zero (b corr : Byte) : adjustChannel b corr 0#8 = 0#8 := by
  rw [adjustChannel_comm, adjustChannel_corr_zero]

theorem adjustChannel_brightness_zero (corr temp : Byte) : adjustChannel 0#8 corr temp = 0#8 := by
  apply BitVec.eq_of_toNat_eq
  rw [adjustChannel_toNat, BitVec.toNat_ofNat, Nat.zero_mod, Nat.mul_zero, Nat.zero_div]

/-- Both the product and the floor are monotone in the brightness (R152). -/
theorem adjustChannel_mono {b d : Byte} (h : b ≤ d) (corr temp : Byte) :
    adjustChannel b corr temp ≤ adjustChannel d corr temp := by
  rw [BitVec.le_def, adjustChannel_toNat, adjustChannel_toNat]
  exact Nat.div_le_div_right (Nat.mul_le_mul_left _ (BitVec.le_def.1 h))

/-! ### The triplet -/

@[simp] theorem adjust_false_get (b : Byte) (corr temp : Triplet Byte) (c : Channel) :
    (adjust false b corr temp).get c = adjustChannel b (corr.get c) (temp.get c) :=
  Triplet.get_tabulate _ c

/-- The flat brightness bypasses the adjustment (R153). -/
@[simp] theorem adjust_true_get (b : Byte) (corr temp : Triplet Byte) (c : Channel) :
    (adjust true b corr temp).get c = b :=
  Triplet.get_tabulate _ c

/-- Settles O56, channel by channel: `adjustChannel_brightness_zero` and `adjustChannel_mono`. -/
theorem adjustIsZeroAtZeroAndMonotone : Obligations.AdjustIsZeroAtZeroAndMonotone := by
  intro corr temp c
  simp only [adjust_false_get]
  exact ⟨adjustChannel_brightness_zero _ _, fun b d h => adjustChannel_mono h _ _⟩

/-- Settles O55: the bound on the product (`adjust_product_le`) gives its width and an idle clamp. -/
theorem adjustIsTheScaledProduct : Obligations.AdjustIsTheScaledProduct := by
  intro b corr temp c
  have hprod := adjust_product_le b (corr.get c) (temp.get c)
  have hquot := adjust_quotient_le b (corr.get c) (temp.get c)
  rw [adjust_false_get]
  refine ⟨?formula, Nat.lt_of_le_of_lt hprod (by decide), hquot, ?zero, adjust_true_get b corr temp c⟩
  case formula => rw [adjustChannel_toNat, Nat.min_eq_right hquot]
  case zero =>
    rintro (hcorr | htemp)
    · rw [hcorr, adjustChannel_corr_zero]
    · rw [htemp, adjustChannel_temp_zero]

end Sys2Proof.Machine
end

section
/-! PROOFS. Fault causes and fault entry (60_exceptions.md R160 to R172): the codes of the causes, the command a
failed check turns into fault entry, and the idle step (R185), with the statements about them settled. -/

namespace Sys2Proof.Machine

/-! ### The codes of the causes -/

/-- Every cause of R160, in the order of the codes. -/
def allCauses : List Cause :=
  [.illegalCommand, .illegalRegister, .noInstance, .underrun, .configOrder, .configExt, .planeDisabled]

theorem mem_allCauses (x : Cause) : x ∈ allCauses := by
  cases x <;> decide

/-- No two causes share a code (R160). -/
theorem Cause.code_injective {x y : Cause} (h : x.code = y.code) : x = y := by
  have hnodup : (allCauses.map Cause.code).Nodup := by decide
  exact List.inj_on_of_nodup_map hnodup (mem_allCauses x) (mem_allCauses y) h

/-- Settles O22: the codes are those of the definition, and `Cause.code_injective`. -/
theorem causesHaveTheirCodes : Obligations.CausesHaveTheirCodes :=
  ⟨rfl, rfl, rfl, rfl, rfl, rfl, rfl, fun _ _ => Cause.code_injective⟩

/-! ### The idle step -/

/-- Settles O11, by the branch of `step` for an empty stream of inputs. -/
theorem stepWithNothingPresentedKeepsAllState : Obligations.StepWithNothingPresentedKeepsAllState :=
  fun s hs => by simp only [step, hs]

/-! ### A failed check is fault entry -/

section FailedCheck

variable {i : Instr} {s : State} {x : Inst}

/-- The second check of `onInst`: a legal command without an instance (R110, R163). -/
theorem onInst_of_idle (body : Inst → Result) (hw : i.wellFormed s.params = true) (hi : s.inst = none) :
    onInst i s body = trap i .noInstance s := by
  rw [onInst_none hi, if_pos hw]

theorem onPixel_of_noPixel (body : Result) (hr : x.rem = 0#16) : onPixel i s x body = trap i .underrun s :=
  if_pos hr

/-- A register access of an unmapped number, or a write to a read-only register (R162). -/
theorem exec_of_badRegister (hp : s.params.wf = true) (h : badRegister s.params i = true) :
    exec i s = trap i .illegalRegister s := by
  cases i with
  | cfgw reg v =>
    cases hr : regOf s.params reg with
    | none => exact exec_cfgw_unmapped hr
    | some r =>
      have hreadOnly : 0x21 ≤ r.number := by
        simpa [badRegister, ← regOf_isSome_eq_mappedNumber hp, hr, (regOf_eq_some_iff.1 hr).1] using h
      exact exec_cfgw_readOnly hr (writeReg_eq_none_iff.2 hreadOnly)
  | cfgr reg => exact exec_cfgr_unmapped ((regOf_eq_none_iff hp).2 (Bool.not_eq_true' _ ▸ h))
  | init | has | load | adv | step | getsc | loadlo | loadbr => cases h

/-- A pull command, or a read of a register of the instance view, without an instance (R163). -/
theorem exec_of_idle (hp : s.params.wf = true) (hw : i.wellFormed s.params = true)
    (hb : badRegister s.params i = false) (hn : needsInstance i = true) (hi : s.inst = none) :
    exec i s = trap i .noInstance s := by
  cases i with
  | has | load | adv | step | getsc | loadlo | loadbr => exact onInst_of_idle _ hw hi
  | cfgr reg =>
    have hmapped : (regOf s.params reg).isSome = true := by
      simpa [badRegister, regOf_isSome_eq_mappedNumber hp] using hb
    obtain ⟨r, hr⟩ := Option.isSome_iff_exists.1 hmapped
    have hview : 0x30 ≤ r.number := (regOf_eq_some_iff.1 hr).1 ▸ of_decide_eq_true hn
    have hnone : readReg s r = none := by simpa [hi] using readReg_isSome_of_ge s r hview
    exact exec_cfgr_noInstance hr hnone
  | init | cfgw => cases hn

/-- `LOADLO` or `LOADBR` of a plane that the instance has not enabled (R164). -/
theorem exec_of_planeOff (hw : i.wellFormed s.params = true) (hx : s.inst = some x) (h : planeOff x i = true) :
    exec i s = trap i .planeDisabled s := by
  cases i with
  | loadlo ch =>
    have hlo : ¬ x.xlo = true := by simpa [planeOff] using h
    rw [exec, execLoadlo, onInst_of_wellFormed _ hx hw, if_neg hlo]
  | loadbr ch =>
    rw [exec, execLoadbr, onInst_of_wellFormed _ hx hw, if_pos (of_decide_eq_true h)]
  | init | has | load | adv | step | getsc | cfgw | cfgr => cases h

/-- A command that needs a pixel when none remains (R165). -/
theorem exec_of_noPixel (hw : i.wellFormed s.params = true) (hx : s.inst = some x) (hplane : planeOff x i = false)
    (hn : needsPixel i = true) (hr : x.rem = 0#16) : exec i s = trap i .underrun s := by
  cases i with
  | load | adv => exact (onInst_of_wellFormed _ hx hw).trans (onPixel_of_noPixel _ hr)
  | loadlo ch =>
    have hlo : x.xlo = true := by simpa [planeOff] using hplane
    rw [exec, execLoadlo, onInst_of_wellFormed _ hx hw, if_pos hlo, onPixel_of_noPixel _ hr]
  | loadbr ch =>
    rw [exec, execLoadbr, onInst_of_wellFormed _ hx hw, if_neg (of_decide_eq_false hplane), onPixel_of_noPixel _ hr]
  | init | has | step | getsc | cfgw | cfgr => cases hn

/-! ### The first failed check decides -/

/-- A command other than `INIT` that passes every check of R172 has no cause. -/
theorem firstCause_of_passed (hw : i.wellFormed s.params = true) (hb : badRegister s.params i = false)
    (hinit : i ≠ .init) (hinst : needsInstance i = true → s.inst ≠ none)
    (hpulls : ∀ x, s.inst = some x → planeOff x i = false ∧ (needsPixel i = true → x.rem ≠ 0#16)) :
    firstCause i s = none := by
  cases hx : s.inst with
  | none =>
    have hn : needsInstance i = false := by simpa [hx] using hinst
    simp [firstCause, faultConditions, hw, hb, hinit, hn, hx]
  | some x =>
    obtain ⟨hplane, hpixel⟩ := hpulls x hx
    simpa [firstCause, faultConditions, hw, hb, hinit, hx, hplane] using hpixel

/-- A command with a failed check takes fault entry with the cause of the first one. The checks are gone through in
the order of R172: each that fails decides both the cause and the command's meaning. -/
theorem exec_of_firstCause {c : Cause} (hp : s.params.wf = true) (h : firstCause i s = some c) :
    exec i s = trap i c s := by
  rcases Bool.dichotomy (i.wellFormed s.params) with hw | hw
  · cases (firstCause_of_illegal hw).symm.trans h
    exact exec_of_illegal hw
  rcases Bool.eq_false_or_eq_true (badRegister s.params i) with hb | hb
  · cases (firstCause_of_badRegister hw hb).symm.trans h
    exact exec_of_badRegister hp hb
  by_cases hinit : i = .init
  · subst hinit
    exact exec_init_of_fault ((firstCause_init s).symm.trans h)
  rcases hx : s.inst with _ | x
  · by_cases hn : needsInstance i = true
    · cases (firstCause_of_idle hw hb hn hx).symm.trans h
      exact exec_of_idle hp hw hb hn hx
    · have hnone := firstCause_of_passed hw hb hinit (absurd · hn) (by simp [hx])
      cases hnone.symm.trans h
  rcases Bool.eq_false_or_eq_true (planeOff x i) with hplane | hplane
  · cases (firstCause_of_planeOff hw hb hx hplane).symm.trans h
    exact exec_of_planeOff hw hx hplane
  by_cases hpixel : needsPixel i = true ∧ x.rem = 0#16
  · obtain ⟨hn, hr⟩ := hpixel
    cases (firstCause_of_noPixel hw hb hn hx hplane hr).symm.trans h
    exact exec_of_noPixel hw hx hplane hn hr
  · have hnone := firstCause_of_passed hw hb hinit (by simp [hx]) (by simpa [hx, hplane] using hpixel)
    cases hnone.symm.trans h

/-- The same over all presented words: one that decodes to nothing faults before every other check (R161). -/
theorem step_of_commandCause {w : Command} {rest : List Input} {c : Cause} (hp : s.params.wf = true)
    (hs : s.inputs = .command w :: rest) (h : commandCause w s = some c) :
    step s = .next (raise c w.cmd { s with inputs := rest }) := by
  cases hd : decode w with
  | error e =>
    simp only [commandCause, hd, Option.some.injEq] at h
    simp only [step, hs, hd, h]
  | ok j =>
    simp only [commandCause, hd] at h
    rw [step_of_decode_ok hs hd, exec_of_firstCause (s := { s with inputs := rest }) hp h, trap,
      encode_cmd_of_decode hd]

end FailedCheck

/-- Settles O21: a cause is fault entry by `step_of_commandCause`; and a fault has a cause by `step_command_next`,
so that without one the answer is no fault. -/
theorem firstFailedCheckDecidesTheFault : Obligations.FirstFailedCheckDecidesTheFault := by
  intro s c rest hp hs
  cases hc : commandCause c s with
  | some x => exact step_of_commandCause hp hs hc
  | none =>
    intro t ht
    rcases step_command_next hs ht with ⟨x, _, hx⟩ | ⟨_, _, _, _, _, _, rfl⟩
    · cases hc.symm.trans (hx hp)
    · exact rspErr_answered _ _ _

end Sys2Proof.Machine
end

section
/-! PROOFS. Reset (70_reset_and_hazards.md R190, R191), the ownership of the declared extents (R196) and the canonical
pull loop (R206), with the statements about them settled. -/

namespace Sys2Proof.Machine

/-! ### Reset -/

/-- Settles O12: the next state is `resetBlock` (`step_reset`), whose registers are those of R50. -/
theorem resetInputResetsTheBlock : Obligations.ResetInputResetsTheBlock :=
  fun _ _ hs => ⟨_, step_reset hs, rfl, rfl, rfl, rfl, rfl, rfl, rfl, rfl, rfl, rfl, rfl, rfl, rfl,
    laneOffset_reset, rfl, rfl, rfl, rfl, rfl, rfl, rfl, rfl⟩

/-! ### Owned extents -/

theorem ownsRest_congr {s t : State} {x : Inst} (hp : t.params = s.params) (hm : t.mem = s.mem) :
    ownsRest t x ↔ ownsRest s x := by
  simp only [ownsRest, hp, hm]

/-- `STEP` moves no pointer (R116). -/
theorem ownsRest_stepInst {s : State} {x : Inst} : ownsRest s (stepInst x) ↔ ownsRest s x :=
  Iff.rfl

/-- An instance with a plane enabled is in a block with the extended planes (R29). -/
theorem ext_of_planeOn {p : Params} {x : Inst} (h : instWf p x = true) (hon : x.xlo = true ∨ x.xbr ≠ 0#2) :
    p.ext = true := by
  obtain ⟨_, _, _, _, _, _, _, hext⟩ := instWf_iff.1 h
  by_contra he
  obtain ⟨hlo, hbr, _⟩ := hext (Bool.eq_false_iff.2 he)
  rcases hon with hon | hon
  · exact absurd (hlo.symm.trans hon) Bool.false_ne_true
  · exact hon hbr

/-- The extent of the pixels after the first one lies in the whole extent. -/
theorem inPixelExtent_of_next {p : Params} {base off a : Addr} {n : Nat}
    (h : inPixelExtent p (addrOf p.aw (base.toNat + 3)) off n a) : inPixelExtent p base off (n + 1) a := by
  obtain ⟨j, hj, rfl⟩ := h
  refine ⟨j + 3, by omega, ?_⟩
  rw [Nat.add_assoc, addrOf_addrOf_add]
  congr 1
  omega

theorem inPlaneExtent_of_next {p : Params} {base a : Addr} {n : Nat}
    (h : inPlaneExtent p (addrOf p.aw (base.toNat + 1)) n a) : inPlaneExtent p base (n + 1) a := by
  obtain ⟨j, hj, rfl⟩ := h
  refine ⟨j + 1, by omega, ?_⟩
  rw [addrOf_addrOf_add]
  congr 1
  omega

section Adv

variable {p : Params} {x : Inst}

theorem advInst_rem_succ (hr : x.rem ≠ 0#16) : (advInst p x).rem.toNat + 1 = x.rem.toNat := by
  have hpos : x.rem.toNat ≠ 0 := fun h0 => hr (BitVec.eq_of_toNat_eq h0)
  have hle : 1#16 ≤ x.rem := BitVec.le_def.2 (Nat.one_le_iff_ne_zero.2 hpos)
  exact (congrArg (· + 1) (BitVec.toNat_sub_of_le hle)).trans (Nat.succ_pred_eq_of_ne_zero hpos)

theorem advInst_loptr (he : p.ext = true) : (advInst p x).loptr = addrOf p.aw (x.loptr.toNat + 3) :=
  if_pos he

theorem advInst_brptr_get (he : p.ext = true) (c : Channel) :
    (advInst p x).brptr.get c = addrOf p.aw ((x.brptr.get c).toNat + 1) := by
  simp only [advInst, he, if_true, Triplet.get_tabulate]

end Adv

/-- R196: what `ADV` leaves of each extent was owned before. -/
theorem ownsRest_advInst {s : State} {x : Inst} (hwf : instWf s.params x = true) (hr : x.rem ≠ 0#16)
    (h : ownsRest s x) : ownsRest s (advInst s.params x) := by
  obtain ⟨hlane, hlow, hglobal, hplane⟩ := h
  rw [← advInst_rem_succ (p := s.params) hr] at hlane hlow hglobal hplane
  refine ⟨fun l hl a ha => hlane l hl a (inPixelExtent_of_next ha), fun hx a ha => hlow hx a ?_,
    fun hx a ha => hglobal hx a ?_, fun hx c a ha => hplane hx c a ?_⟩
  · rw [advInst_loptr (ext_of_planeOn hwf (.inl hx))] at ha
    exact inPixelExtent_of_next ha
  · have hon : x.xbr ≠ 0#2 := xbr_ne_zero_of_mode (.inl hx)
    rw [← Triplet.get_red, advInst_brptr_get (ext_of_planeOn hwf (.inr hon))] at ha
    exact inPlaneExtent_of_next ha
  · have hon : x.xbr ≠ 0#2 := xbr_ne_zero_of_mode (.inr hx)
    rw [advInst_brptr_get (ext_of_planeOn hwf (.inr hon))] at ha
    exact inPlaneExtent_of_next ha

/-- The modes that select a brightness plane, 3 being ruled out (R132). -/
theorem xbr_mode_cases {m : BitVec 2} (h0 : m ≠ 0#2) (h3 : m ≠ 3#2) : m = 1#2 ∨ m = 2#2 := by
  revert m
  decide

/-- A plane read of the current pixel falls on an owned byte: the instance is where it is after no move, so that the
address lies in the extent by the lemmas about `MovedBy`. -/
theorem PlaneRead.owned {s : State} {x : Inst} {i : Instr} {a : Addr} (h : PlaneRead s.params x i a)
    (hwf : instWf s.params x = true) (hr : x.rem ≠ 0#16) (ho : ownsRest s x) :
    ∃ b, memoryRead s.mem a.toNat = some b := by
  obtain ⟨hlane, hlow, hglobal, hplane⟩ := ho
  obtain ⟨_, _, _, _, horder, _, hmode, _⟩ := instWf_iff.1 hwf
  have hself := MovedBy.refl hwf
  apply Option.ne_none_iff_exists'.1
  cases h with
  | load hl => exact hlane _ hl _ (hself.loadAddr_inPixelExtent hr horder _ _)
  | loadlo he hx => exact hlow hx _ (hself.loadloAddr_inPixelExtent hr horder he _)
  | @loadbr ch he hx =>
    have hext := hself.loadbrAddr_inPlaneExtent hr he ch
    rw [loadbrAddr_eq_get] at hext ⊢
    rcases xbr_mode_cases hx hmode with hone | htwo
    · rw [if_pos hone] at hext ⊢
      exact hglobal hone _ hext
    · exact hplane htwo _ _ hext

/-- Only a plane read can stop the machine, and its byte is owned. -/
theorem exec_next_of_owned {s : State} {x : Inst} (i : Instr) (hwf : instWf s.params x = true)
    (hx : s.inst = some x) (ho : ownsRest s x) : ∃ t, exec i s = .next t := by
  cases hi : readsByte i with
  | false =>
    rcases exec_traps_or_answers s hi with ⟨_, ht⟩ | ⟨_, _, ht⟩
    · exact ⟨_, ht⟩
    · exact ⟨_, ht⟩
  | true =>
    rcases exec_traps_or_planeRead s hi with ⟨_, ht⟩ | ⟨y, a, hy, hr, hread⟩
    · exact ⟨_, ht⟩
    · cases hy.symm.trans hx
      obtain ⟨answer, heq⟩ := hread.exec_eq hx hr
      obtain ⟨b, hb⟩ := hread.owned hwf hr ho
      exact ⟨_, heq.trans (readByte_some hb)⟩

/-- Settles O20: no command stops (`exec_next_of_owned`); the memory stays, and of the commands that leave an instance
`ADV` alone moves its pointers (`ownsRest_advInst`). -/
theorem ownedExtentsNeverStop : Obligations.OwnedExtentsNeverStop := by
  intro i s x hinv hx ho
  have hwf := instWf_of_stateInv hinv hx
  obtain ⟨t, ht⟩ := exec_next_of_owned i hwf hx ho
  refine ⟨t, ht, fun hi y hy => ?_⟩
  obtain ⟨hmem, hparams, _⟩ := commandsNeverWriteMemory i s t ht
  rw [ownsRest_congr hparams hmem]
  obtain ⟨z, hz, hcases⟩ := exec_inst_of_ne_init hi ht hy
  cases hz.symm.trans hx
  rcases hcases with ⟨_, hr, rfl⟩ | ⟨_, rfl⟩ | ⟨_, _, rfl⟩
  · exact ownsRest_advInst hwf hr ho
  · exact ownsRest_stepInst.2 ho
  · exact ho

/-! ### The canonical pull loop -/

/-- Every block has lane 0 (R8). -/
theorem lane_zero_lt {p : Params} (hp : p.wf = true) : (0#4 : BitVec 4).toNat < p.nlanes := by
  simp only [Params.wf, Bool.and_eq_true, decide_eq_true_eq] at hp
  obtain ⟨⟨_, hlanes, _⟩, _⟩ := hp
  exact hlanes

/-- The first `LOAD` of a list leaves nothing behind but its response. -/
theorem runInstrs_load_of_owned {s : State} {x : Inst} (ch : Channel) (is : List Instr)
    (hinv : stateInv s = true) (hx : s.inst = some x) (hr : x.rem ≠ 0#16) (ho : ownsRest s x) :
    ∃ v a, runInstrs (.load ch 0#4 :: is) s = runInstrs is (answered v a s) := by
  obtain ⟨hp, _⟩ := stateInv_iff.1 hinv
  have hread : PlaneRead s.params x (.load ch 0#4) _ := .load (lane_zero_lt hp)
  obtain ⟨b, hb⟩ := hread.owned (instWf_of_stateInv hinv hx) hr ho
  exact ⟨_, _, runInstrs_cons (exec_load_of_held hx (lane_zero_lt hp) hr hb)⟩

/-- The state after one round of the loop: the instance has passed one pixel and toggled its dither offsets. -/
def afterPixel (s : State) (x : Inst) : State :=
  answered 0#32 none { s with inst := some (stepInst (advInst s.params x)) }

theorem runInstrs_adv_step {s : State} {x : Inst} (hx : s.inst = some x) (hr : x.rem ≠ 0#16) :
    runInstrs [.adv, .step] s = .next (afterPixel s x) := by
  rw [runInstrs_cons (exec_adv_of_pixel hx hr), runInstrs_cons (exec_step_of_inst rfl)]
  rfl

/-- The body of the loop over an owned pixel: three loads, then `ADV` and `STEP`. -/
theorem runInstrs_pixelBody {s : State} {x : Inst} (hinv : stateInv s = true) (hx : s.inst = some x)
    (hr : x.rem ≠ 0#16) (ho : ownsRest s x) : runInstrs pixelBody s = .next (afterPixel s x) := by
  obtain ⟨v0, a0, hred⟩ := runInstrs_load_of_owned .red _ hinv hx hr ho
  obtain ⟨v1, a1, hgreen⟩ := runInstrs_load_of_owned (s := answered v0 a0 s) .green _ hinv hx hr ho
  obtain ⟨v2, a2, hblue⟩ := runInstrs_load_of_owned (s := answered v1 a1 (answered v0 a0 s)) .blue _ hinv hx hr ho
  rw [pixelBody, hred, hgreen, hblue]
  exact runInstrs_adv_step (s := answered v2 a2 _) hx hr

theorem stateInv_afterPixel {s : State} {x : Inst} (hinv : stateInv s = true) (hx : s.inst = some x) :
    stateInv (afterPixel s x) = true :=
  stateInv_setInst (s := s) s.frame hinv (instWf_stepInst (instWf_advInst (instWf_of_stateInv hinv hx)))

/-- `HAS 1` asks whether a pixel remains (R111). -/
theorem exec_has_one {s : State} {x : Inst} (hx : s.inst = some x) :
    exec (.has 1#32) s = .next (answered (if x.rem = 0#16 then 0#32 else 1#32) none s) := by
  have hiff : 1#32 ≤ x.rem.setWidth 32 ↔ ¬ x.rem = 0#16 := by
    rw [le_rem_setWidth_iff, ← BitVec.toNat_inj]
    exact Nat.one_le_iff_ne_zero
  rw [hasAnswersWhetherPixelsRemain s x _ hx]
  simp only [hiff, ite_not]
  rfl

/-- With no pixel remaining the loop ends. -/
theorem canonicalLoop_of_noPixel {s : State} {x : Inst} (n : Nat) (hx : s.inst = some x) (hr : x.rem = 0#16) :
    canonicalLoop (n + 1) s = .next (answered 0#32 none s) := by
  simp only [canonicalLoop, exec_has_one hx, if_pos hr]
  rfl

/-- With an owned pixel remaining the loop goes one round on. -/
theorem canonicalLoop_of_pixel {s : State} {x : Inst} (n : Nat) (hinv : stateInv s = true) (hx : s.inst = some x)
    (hr : x.rem ≠ 0#16) (ho : ownsRest s x) : canonicalLoop (n + 1) s = canonicalLoop n (afterPixel s x) := by
  have hbody : runInstrs pixelBody (answered 1#32 none s) = .next (afterPixel s x) :=
    runInstrs_pixelBody (s := answered 1#32 none s) hinv hx hr ho
  have hrsp : (answered 1#32 none s).rsp = some ⟨1#32, false⟩ := rfl
  simp only [canonicalLoop, exec_has_one hx, if_neg hr, if_pos hrsp, hbody]

/-- By induction on the pixels remaining: the loop changes the instance and the response only, and every pixel is
passed by one `ADV` and one `STEP`. -/
theorem canonicalLoop_of_owned {n : Nat} {s : State} {x : Inst} (hinv : stateInv s = true) (hx : s.inst = some x)
    (ho : ownsRest s x) (hn : x.rem.toNat = n) :
    ∃ y, canonicalLoop (n + 1) s = .next (answered 0#32 none { s with inst := some y }) ∧
      MovedBy s.params x y n n := by
  have hwf := instWf_of_stateInv hinv hx
  induction n generalizing s x with
  | zero =>
    refine ⟨x, ?_, .refl hwf⟩
    rw [canonicalLoop_of_noPixel 0 hx (BitVec.eq_of_toNat_eq hn), ← hx]
  | succ n ih =>
    have hr : x.rem ≠ 0#16 := by
      intro h0
      simp [h0] at hn
    have hrem : (stepInst (advInst s.params x)).rem.toNat = n :=
      Nat.succ.inj ((advInst_rem_succ (p := s.params) hr).trans hn)
    have hinv' := stateInv_afterPixel hinv hx
    have howns : ownsRest (afterPixel s x) (stepInst (advInst s.params x)) :=
      (ownsRest_congr rfl rfl).2 (ownsRest_stepInst.2 (ownsRest_advInst hwf hr ho))
    obtain ⟨y, hloop, hmoved⟩ := ih hinv' rfl howns hrem (instWf_of_stateInv hinv' rfl)
    refine ⟨y, ?_, hmoved.step.adv hr⟩
    rw [canonicalLoop_of_pixel _ hinv hx hr ho, hloop]
    rfl

/-- Settles O46: the loop ends in a state that differs in the instance and the response (`canonicalLoop_of_owned`),
where `MovedBy` says that no pixel remains and how far the cursor is. -/
theorem canonicalLoopPullsEveryPixel : Obligations.CanonicalLoopPullsEveryPixel := by
  intro s x hinv hx ho
  obtain ⟨y, hloop, hmoved⟩ := canonicalLoop_of_owned hinv hx ho rfl
  have hrem : y.rem = 0#16 := BitVec.eq_of_toNat_eq (hmoved.rem.trans (Nat.sub_self _))
  exact ⟨_, y, hloop, rfl, hrem, rfl, rfl, rfl, rfl, hmoved.ptr⟩

end Sys2Proof.Machine
end

section
/-! PROOFS. The set-up of a show call (70_reset_and_hazards.md R195, 46_host_functions.md R154): the configuration its
register writes leave, and the instance `INIT` constructs from it, with the statement about it settled. -/

namespace Sys2Proof.Machine

/-! ### A register write by name -/

theorem regNumber_lt (r : Reg) : r.number < 2 ^ 8 := by
  have hall : ∀ q ∈ allRegs, q.number < 2 ^ 8 := by decide
  exact hall r (mem_allRegs r)

theorem regOf_number {p : Params} {r : Reg} (h : r.present p = true) :
    regOf p (BitVec.ofNat 8 r.number) = some r :=
  regOf_eq_some_iff.2 ⟨by rw [BitVec.toNat_ofNat, Nat.mod_eq_of_lt (regNumber_lt r)], h⟩

theorem writeReg_of_writeCfg {s : State} {r : Reg} {v : Word} {c : ConfigRegs}
    (h : writeCfg s.params s.cfg v r = some c) : writeReg s r v = some { s with cfg := c } := by
  have hne : r ≠ .status := by
    rintro rfl
    cases h
  rw [writeReg, if_neg hne, h]
  rfl

/-- The state after register writes that leave the configuration `c`. -/
def configured (c : ConfigRegs) (s : State) : State :=
  answered 0#32 none { s with cfg := c }

@[simp] theorem configured_params (c : ConfigRegs) (s : State) : (configured c s).params = s.params := rfl
@[simp] theorem configured_cfg (c : ConfigRegs) (s : State) : (configured c s).cfg = c := rfl

/-- The first register write of a list, from any state (R141). -/
theorem runInstrs_cfgwReg {s : State} {r : Reg} {v : Word} {c : ConfigRegs} {is : List Instr}
    (hr : r.present s.params = true) (hw : writeCfg s.params s.cfg v r = some c) :
    runInstrs (cfgwReg r v :: is) s = runInstrs is (configured c s) :=
  runInstrs_cons (exec_cfgw_write (regOf_number hr) (writeReg_of_writeCfg hw))

/-- A register write after others. -/
theorem runInstrs_cfgwReg_configured {s : State} {r : Reg} {v : Word} {c d : ConfigRegs} {is : List Instr}
    (hr : r.present s.params = true) (hw : writeCfg s.params c v r = some d) :
    runInstrs (cfgwReg r v :: is) (configured c s) = runInstrs is (configured d s) :=
  runInstrs_cfgwReg (s := configured c s) hr hw

/-! ### Writes of values that a register holds in full -/

theorem setWidth_setWidth_cancel {k : Nat} (hk : k ≤ 32) (b : BitVec k) : (b.setWidth 32).setWidth k = b := by
  rw [BitVec.setWidth_setWidth_of_le _ hk, BitVec.setWidth_eq]

theorem addrOf_of_fits {p : Params} {a : Addr} (h : addrFits p a = true) : addrOf p.aw a.toNat = a :=
  addrOf_self p.aw a (addrFits_lt h)

section Fitting

variable {p : Params} {c : ConfigRegs} {a : Addr}

theorem writeCfg_npix (n : BitVec 16) : writeCfg p c (n.setWidth 32) .npix = some { c with npix := n } := by
  rw [writeCfg, setWidth_setWidth_cancel (by decide)]

theorem writeCfg_order (o : BitVec 6) : writeCfg p c (o.setWidth 32) .order = some { c with order := o } := by
  rw [writeCfg, setWidth_setWidth_cancel (by decide)]

theorem writeCfg_extctl (e : BitVec 3) : writeCfg p c (e.setWidth 32) .extctl = some { c with extctl := e } := by
  rw [writeCfg, setWidth_setWidth_cancel (by decide)]

theorem writeCfg_dmode (b : Bool) :
    writeCfg p c (if b then 1#32 else 0#32) .dmode = some { c with dmode := BitVec.ofBool b } := by
  cases b <;> rfl

variable (h : addrFits p a = true)
include h

theorem writeCfg_base : writeCfg p c a .base = some { c with base := a } := by
  rw [writeCfg, addrOf_of_fits h]

theorem writeCfg_lobase : writeCfg p c a .lobase = some { c with lobase := a } := by
  rw [writeCfg, addrOf_of_fits h]

theorem writeCfg_brbase (i : Channel) :
    writeCfg p c a (.brbase i) = some { c with brbase := c.brbase.set i a } := by
  rw [writeCfg, addrOf_of_fits h]

theorem writeCfg_loff (l : BitVec 4) :
    writeCfg p c a (.loff l) = some { c with loff := c.loff.set l.toNat a l.isLt } := by
  simp only [writeCfg, addrOf_of_fits h]

end Fitting

/-! ### The steps of the set-up -/

/-- The configuration after steps 2 to 5 of R195. -/
def frameConfig (c : ShowCall) (r : ConfigRegs) : ConfigRegs :=
  { r with
    base := c.base
    npix := c.npix
    scale := (packTriplet (hostScale c.scale)).setWidth 24
    dmode := BitVec.ofBool c.dither
    order := c.order }

/-- The lane offsets after those of a show call are written one after the other (R195 step 6). -/
def setLanes (off : Vector Addr 16) : List (BitVec 4 × Addr) → Vector Addr 16
  | [] => off
  | l :: ls => setLanes (off.set l.1.toNat l.2 l.1.isLt) ls

/-- The configuration that the whole set-up leaves, the planes last (R195 step 7). -/
def showConfig (c : ShowCall) (r : ConfigRegs) : ConfigRegs :=
  { frameConfig c r with
    loff := setLanes r.loff c.lanes
    extctl := c.planes.elim r.extctl ShowPlanes.extctl
    lobase := c.planes.elim r.lobase ShowPlanes.lobase
    brbase := c.planes.elim r.brbase ShowPlanes.brbase }

/-- Steps 2 to 5: five registers that every block has. -/
theorem runInstrs_frameSetup {s : State} {c : ShowCall} (is : List Instr) (hbase : addrFits s.params c.base = true) :
    runInstrs (cfgwReg .base c.base :: cfgwReg .npix (c.npix.setWidth 32) ::
      cfgwReg .scale (packTriplet (hostScale c.scale)) :: cfgwReg .dmode (if c.dither then 1#32 else 0#32) ::
      cfgwReg .order (c.order.setWidth 32) :: is) s = runInstrs is (configured (frameConfig c s.cfg) s) := by
  rw [runInstrs_cfgwReg rfl (writeCfg_base hbase), runInstrs_cfgwReg_configured rfl (writeCfg_npix c.npix),
    runInstrs_cfgwReg_configured (r := .scale) rfl rfl, runInstrs_cfgwReg_configured rfl (writeCfg_dmode c.dither),
    runInstrs_cfgwReg_configured rfl (writeCfg_order c.order)]
  rfl

/-- Step 6, by induction on the lanes: each write is put before the rest of them. -/
theorem runInstrs_lanesSetup {s : State} {lanes : List (BitVec 4 × Addr)} (d : ConfigRegs) (is : List Instr)
    (hlanes : ∀ l ∈ lanes, l.1.toNat < s.params.nlanes ∧ addrFits s.params l.2 = true) :
    runInstrs ((lanes.map fun l => cfgwReg (.loff l.1) l.2) ++ is) (configured d s) =
      runInstrs is (configured { d with loff := setLanes d.loff lanes } s) := by
  induction lanes generalizing d with
  | nil => rfl
  | cons l ls ih =>
    obtain ⟨⟨hl, ha⟩, hls⟩ := List.forall_mem_cons.1 hlanes
    have hpresent : (Reg.loff l.1).present s.params = true := decide_eq_true hl
    rw [List.map_cons, List.cons_append, runInstrs_cfgwReg_configured hpresent (writeCfg_loff ha l.1), ih _ hls]
    rfl

/-- Step 7: nothing is written without planes. -/
theorem runInstrs_planesSetup {s : State} {planes : Option ShowPlanes} (d : ConfigRegs) (is : List Instr)
    (hplanes : ∀ pl, planes = some pl → s.params.ext = true ∧
      addrFits s.params pl.lobase = true ∧ tripletFits s.params pl.brbase = true) :
    runInstrs (planesSetup planes ++ is) (configured d s) =
      runInstrs is (configured { d with
        extctl := planes.elim d.extctl ShowPlanes.extctl
        lobase := planes.elim d.lobase ShowPlanes.lobase
        brbase := planes.elim d.brbase ShowPlanes.brbase } s) := by
  cases planes with
  | none => rfl
  | some pl =>
    obtain ⟨he, hlo, hbr⟩ := hplanes pl rfl
    obtain ⟨h0, h12⟩ := Bool.and_eq_true_iff.1 hbr
    obtain ⟨h1, h2⟩ := Bool.and_eq_true_iff.1 h12
    simp only [planesSetup, List.cons_append, List.nil_append]
    rw [runInstrs_cfgwReg_configured (r := .extctl) he (writeCfg_extctl pl.extctl),
      runInstrs_cfgwReg_configured (r := .lobase) he (writeCfg_lobase hlo),
      runInstrs_cfgwReg_configured (r := .brbase .red) he (writeCfg_brbase h0 .red),
      runInstrs_cfgwReg_configured (r := .brbase .green) he (writeCfg_brbase h1 .green),
      runInstrs_cfgwReg_configured (r := .brbase .blue) he (writeCfg_brbase h2 .blue)]
    rfl

/-! ### The instance constructed -/

/-- The host's triplet read back from `SCALE` (R26, R150). -/
theorem scaleField_packTriplet (t : Triplet Byte) (ch : Channel) :
    scaleField ((packTriplet t).setWidth 24) ch = t.get ch := by
  apply BitVec.eq_of_toNat_eq
  have h0 := byte_toNat_lt t.c0
  have h1 := byte_toNat_lt t.c1
  have h2 := byte_toNat_lt t.c2
  cases ch <;>
  · simp only [scaleField, packTriplet, append_toNat, BitVec.extractLsb'_toNat, BitVec.toNat_setWidth,
      Nat.shiftRight_eq_div_pow, Triplet.get_red, Triplet.get_green, Triplet.get_blue, BitVec.toNat_ofNat]
    omega

theorem laneOffset_setLanes_of_notMem {lanes : List (BitVec 4 × Addr)} {off : Vector Addr 16} {k : BitVec 4}
    (hk : k ∉ lanes.map Prod.fst) : laneOffset (setLanes off lanes) k = laneOffset off k := by
  induction lanes generalizing off with
  | nil => rfl
  | cons l ls ih =>
    obtain ⟨hne, hls⟩ := List.ne_and_not_mem_of_not_mem_cons hk
    rw [setLanes, ih hls, laneOffset_set, if_neg (Ne.symm hne)]

/-- With no lane named twice, each keeps the offset it was given. -/
theorem laneOffset_setLanes_of_mem {lanes : List (BitVec 4 × Addr)} {off : Vector Addr 16}
    {l : BitVec 4 × Addr} (hnodup : (lanes.map Prod.fst).Nodup) (hl : l ∈ lanes) :
    laneOffset (setLanes off lanes) l.1 = l.2 := by
  induction lanes generalizing off with
  | nil => cases hl
  | cons m ms ih =>
    obtain ⟨hm, hms⟩ := List.nodup_cons.1 hnodup
    rcases List.mem_cons.1 hl with rfl | hl
    · rw [setLanes, laneOffset_setLanes_of_notMem hm, laneOffset_set, if_pos rfl]
    · exact ih hms hl

/-- Steps 2 to 7 leave `showConfig`, and `INIT` is left to do. -/
theorem runInstrs_showSetup {s : State} {c : ShowCall} (hbase : addrFits s.params c.base = true)
    (hlanes : ∀ l ∈ c.lanes, l.1.toNat < s.params.nlanes ∧ addrFits s.params l.2 = true)
    (hplanes : ∀ pl, c.planes = some pl → s.params.ext = true ∧
      addrFits s.params pl.lobase = true ∧ tripletFits s.params pl.brbase = true) :
    runInstrs (showSetup c) s = runInstrs [.init] (configured (showConfig c s.cfg) s) := by
  simp only [showSetup, List.append_assoc, List.cons_append, List.nil_append]
  rw [runInstrs_frameSetup _ hbase, runInstrs_lanesSetup _ _ hlanes, runInstrs_planesSetup _ _ hplanes]
  rfl

/-- The configuration of a legal call passes the checks of `INIT` (R101). -/
theorem initCheck_showConfig {s : State} {c : ShowCall} (horder : orderLegal c.order = true)
    (hplanes : ∀ pl, c.planes = some pl → brmode pl.extctl ≠ 3#2)
    (hnone : c.planes = none → s.params.ext = true → brmode s.cfg.extctl ≠ 3#2) :
    initCheck (configured (showConfig c s.cfg) s) = none := by
  refine initCheck_eq_none.2 ⟨horder, fun he => ?_⟩
  cases hc : c.planes with
  | none => simpa only [configured_cfg, showConfig, hc, Option.elim_none] using hnone hc he
  | some pl => simpa only [configured_cfg, showConfig, hc, Option.elim_some] using hplanes pl hc

/-- Settles O57: the register writes leave `showConfig` (`runInstrs_showSetup`), which passes the checks of `INIT`
(`initCheck_showConfig`), and each part of the instance is read from it. -/
theorem showSetupConstructsTheInstance : Obligations.ShowSetupConstructsTheInstance := by
  intro s c _ horder hbase hlanes hnodup hplanes hnone
  have hcheck := initCheck_showConfig (s := s) horder
    (fun pl hpl => have ⟨_, hmode, _⟩ := hplanes pl hpl; hmode) hnone
  have hrun := runInstrs_showSetup hbase hlanes
    fun pl hpl => have ⟨he, _, hlo, hbr⟩ := hplanes pl hpl; ⟨he, hlo, hbr⟩
  have hdmode : (configured (showConfig c s.cfg) s).cfg.dmode = BitVec.ofBool c.dither := rfl
  refine ⟨_, _, hrun.trans (runInstrs_cons (exec_init_of_legal hcheck)), rfl, rfl, rfl, ?_, rfl,
    fun hd ch => ?_, ?_, fun l hl => laneOffset_setLanes_of_mem hnodup hl, fun pl hpl => ?_, rfl, rfl⟩
  · refine Triplet.ext_get fun ch => (Triplet.get_tabulate _ ch).trans ?_
    exact scaleField_packTriplet _ ch
  · rw [hd] at hdmode
    exact ⟨(Triplet.get_tabulate _ ch).trans (congrFun (initOffset_undithered hdmode) ch),
      (Triplet.get_tabulate _ ch).trans (congrFun (initIncrement_undithered hdmode) ch)⟩
  · cases hd : c.dither with
    | false => exact initFrame_undithered (by rw [hdmode, hd]; rfl)
    | true => exact initFrame_dithered (by rw [hdmode, hd]; rfl)
  · obtain ⟨he, _⟩ := hplanes pl hpl
    simp [initInst, showConfig, hpl, he]

end Sys2Proof.Machine
end
